-- ==== Sys2Proof/Word.lean ====
section
/-! DEFINITION. The machine's word and character types (spec 10_state R10, 47_char_io R172 and R179). -/

namespace Sys2Proof

/-- R10: a Word is an unsigned 16-bit integer; registers, cells and stack entries are Words. -/
abbrev Word := BitVec 16

/-- R172, R179: a character of the input or of the output is an 8-bit code; also a byte of the image (R223). -/
abbrev Byte := BitVec 8

end Sys2Proof
end

