-- ==== Sys2Proof/Config.lean ====
section
/-! DEFINITION. The numbers the spec fixes (00_scope R5) and the ones it decides for itself (00_scope R6). -/

namespace Sys2Proof

/-- `MEM_WORDS`, the number of cells of the Program Store (R30; the spec's decision D1, log entry 11). DESIGN CHOICE. -/
def Config.memWords : Nat := 32768

/-- `MOD`, the modulus of `add` and `mult` (R5). -/
def Config.modulus : Nat := 32768

/-- The bound an address must stay below (R76). -/
def Config.addressLimit : Nat := 32768

/-- `REG_BASE`, the raw operand that names register 0 (R5, R53). -/
def Config.regBase : Nat := 32768

/-- The first invalid raw operand (R5, R53). -/
def Config.firstInvalid : Nat := 32776

/-- `OUT_LIMIT`: `out` of a value at or above it is fatal (R5, R170). -/
def Config.outLimit : Nat := 256

/-- The 15-bit complement mask of `not` (R5, R145). -/
def Config.complementMask : Word := 0x7FFF

/-- `PAD_WORD`, the content of a cell that the image does not cover and nothing has written
(R227; the spec's decision D2, log entry 2). DESIGN CHOICE. -/
def Config.padWord : Word := 0

/-- `STACK_DEPTH`: none, because the spec takes the Call Stack as unbounded
(R16; the spec's decision D5, log entry 3). DESIGN CHOICE. -/
def Config.stackDepth : Option Nat := none

end Sys2Proof
end

