-- ==== Sys2Proof/Machine/State.lean ====
section
/-! DEFINITION. The machine's state (10_state R10 to R25), its value at reset (R23), and the names of the ways a
run or a step ends (60_exceptions R190). -/

namespace Sys2Proof.Machine

/-- R190: the reasons a run can abort with. The first eight are the source's, the last four the spec's own. -/
inductive Reason where
  /-- the image has an odd number of bytes; raised by the loader only (R198) -/
  | malformedImage
  /-- a raw operand of 32776 or more in a src or addr position (R191) -/
  | invalidOperand
  /-- a resolved address of 32768 or more (R192) -/
  | invalidAddress
  /-- a destination operand that is not register-encoded (R193) -/
  | invalidRegisterTarget
  /-- `pop` or `ret` on an empty stack (R194) -/
  | stackUnderflow
  /-- `out` of 256 or more (R195) -/
  | invalidOutputValue
  /-- `in` with no further input (R196) -/
  | inputExhausted
  /-- `mod` by zero (R197) -/
  | arithmeticError
  /-- an instruction cut off by the end of the Program Store (R199) -/
  | truncatedInstruction
  /-- `in` received a line without characters (R200) -/
  | emptyInputLine
  /-- a full stack in a build whose stack is finite (R201); no step of this machine raises it -/
  | stackOverflow
  /-- the image has more than `MEM_WORDS` words; raised by the loader only (R201) -/
  | imageTooLarge
  deriving DecidableEq, Repr

/-- R19: the one control state. `aborted` carries the reason and the address of the offending opcode word (R206). -/
inductive Status where
  | running
  | halted
  | aborted (reason : Reason) (faultPc : Word)
  deriving DecidableEq, Repr

/-- R17, R32: the Program Store as a list of (cell index, word) pairs. The addressable unit of this machine is the
word: there are no bytes inside it (R30, R35). The canonical form is `Memory.wf`. DESIGN CHOICE, log entry 1. -/
abbrev Memory := List (Nat × Word)

/-- R10 to R20: the whole state of the machine, and the environment it is observed through. -/
structure State where
  /-- the general registers `x[0]` to `x[7]` (R11) -/
  x : Vector Word 8
  /-- the program counter, a cell index from 0 to 32768 (R13, R14) -/
  pc : Word
  /-- the Call Stack, top last (R15) -/
  stack : List Word
  /-- the Program Store (R17) -/
  mem : Memory
  /-- the line buffer of the input adapter, first character first (R18) -/
  inbuf : List Byte
  /-- the control state (R19) -/
  status : Status
  /-- the environment's input source (R20, R177): the lines the host has delivered and the adapter not yet taken,
  the next one first; without their terminators (R176). DESIGN CHOICE, log entry 9. -/
  input : List (List Byte)
  /-- the environment's input source (R20, R177): the host has declared the input finished -/
  inputClosed : Bool
  /-- the environment's output stream (R20, R172): the characters emitted so far, oldest first -/
  output : List Byte
  deriving DecidableEq, Repr

/-- Why a step stops. -/
inductive Fault where
  /-- Raised by `step` alone, in a state whose status is Halted or Aborted: the run has ended and the spec has no
  step from it (R70, R83). Safe: the machine does not go on. -/
  | runEnded
  deriving DecidableEq, Repr

/-- Why an instruction has no meaning in this model. -/
inductive Refusal where
  /-- For an arm of `exec` whose instruction has no meaning yet; no arm of this model raises it. Safe. -/
  | notModelled (mnemonic : String)
  deriving DecidableEq, Repr

/-- What an instruction answers. -/
abbrev Result := Host.Outcome State Fault Refusal

/-- R23, R220: the machine right after reset, with no image loaded: every cell reads `PAD_WORD`. The input source
is open and has delivered nothing (DESIGN CHOICE, log entry 9). -/
def State.reset : State where
  x := Vector.replicate 8 0
  pc := 0
  stack := []
  mem := []
  inbuf := []
  status := .running
  input := []
  inputClosed := false
  output := []

end Sys2Proof.Machine
end

