-- ==== Sys2Proof/Machine/Flags.lean ====
section
/-! DEFINITION. The machine has no flags (10_state R21). What stands in their place: the outcome of a comparison as
a word (43_compare R110, R111) and the test of a word against zero (44_jumps R121, R122); and the results of the
arithmetic and logic family, none of which sets a flag (45_arith_logic R140 to R147). -/

namespace Sys2Proof.Machine

/-- R110, R111: the outcome of a comparison as the word 1 or 0. -/
def truthWord (holds : Bool) : Word := if holds then 1 else 0

/-- R110: equality of all 16 bits. -/
def eqResult (vb vc : Word) : Word := truthWord (decide (vb = vc))

/-- R111: strict unsigned greater-than. -/
def gtResult (vb vc : Word) : Word := truthWord (decide (vc.toNat < vb.toNat))

/-- R121, R122: a word is taken as true when any of its 16 bits is set. -/
def nonZero (v : Word) : Bool := decide (v ≠ 0)

/-- R140: the sum on natural numbers, modulo 32768. -/
def addResult (vb vc : Word) : Word := BitVec.ofNat 16 ((vb.toNat + vc.toNat) % Config.modulus)

/-- R141: the product on natural numbers, modulo 32768. -/
def multResult (vb vc : Word) : Word := BitVec.ofNat 16 ((vb.toNat * vc.toNat) % Config.modulus)

/-- R142, R147: the unsigned remainder, not reduced further; used with a divisor that is not 0. -/
def modResult (vb vc : Word) : Word := BitVec.ofNat 16 (vb.toNat % vc.toNat)

/-- R143: bitwise and of the 16-bit words. -/
def andResult (vb vc : Word) : Word := vb &&& vc

/-- R144: bitwise or of the 16-bit words. -/
def orResult (vb vc : Word) : Word := vb ||| vc

/-- R145: the 15-bit complement. -/
def notResult (vb : Word) : Word := ~~~vb &&& Config.complementMask

end Sys2Proof.Machine
end

