-- ==== Sys2Proof/Machine/Ops.lean ====
section
/-! DEFINITION. The named operations over memory, registers, pc, stack, input, output and status, and taking a fatal
condition (20_memory R32, R33; 10_state R11, R13, R15; 40_engine R74, R79; 47_char_io R172, R175). -/

namespace Sys2Proof.Machine

/-- R32: the word in a cell; a cell that is not listed holds `PAD_WORD`. -/
def Memory.read (m : Memory) (addr : Nat) : Word :=
  match m with
  | [] => Config.padWord
  | (k, w) :: rest => if k = addr then w else Memory.read rest addr

/-- An entry placed before the first one with a higher cell index. -/
def Memory.insertCell (m : Memory) (addr : Nat) (v : Word) : Memory :=
  match m with
  | [] => [(addr, v)]
  | (k, w) :: rest => if addr < k then (addr, v) :: (k, w) :: rest else (k, w) :: Memory.insertCell rest addr v

/-- R33: replace the content of one cell, keeping the canonical form. -/
def Memory.write (m : Memory) (addr : Nat) (v : Word) : Memory :=
  if v = Config.padWord then m.filter (fun c => decide (c.1 ≠ addr))
  else Memory.insertCell (m.filter (fun c => decide (c.1 ≠ addr))) addr v

/-- The canonical form: cell indexes strictly rising and below `MEM_WORDS`, no entry equal to what an unlisted cell
reads as. -/
def Memory.wf (m : Memory) : Bool :=
  match m with
  | [] => true
  | (k, w) :: rest =>
    decide (k < Config.memWords) && decide (w ≠ Config.padWord) && rest.all (fun c => decide (k < c.1)) && Memory.wf rest

/-- R11: the content of a register. -/
def State.reg (s : State) (i : Fin 8) : Word := s.x.get i

/-- R11: write a register; all 16 bits are kept (R12). -/
def State.setReg (s : State) (i : Fin 8) (v : Word) : State := { s with x := s.x.set i.val v i.isLt }

/-- R74: the pc after an instruction of `n` words that does not write it. The meanings start from the state before
the fetch, whose pc is `ipc`. -/
def State.advance (s : State) (n : Nat) : State := { s with pc := s.pc + BitVec.ofNat 16 n }

/-- R13: overwrite the program counter. -/
def State.jump (s : State) (target : Word) : State := { s with pc := target }

/-- R15: append a word to the Call Stack. -/
def State.stackPush (s : State) (v : Word) : State := { s with stack := s.stack ++ [v] }

/-- R15: the most recently pushed word, if there is one. -/
def State.stackTop? (s : State) : Option Word := s.stack.getLast?

/-- R15: remove the most recently pushed word. -/
def State.stackDrop (s : State) : State := { s with stack := s.stack.dropLast }

/-- R16, R201: a stack that may hold at most `depth` words is full; an unbounded one never is. -/
def stackFull (depth : Option Nat) (s : State) : Bool :=
  match depth with
  | none => false
  | some d => decide (d ≤ s.stack.length)

/-- R33: write a cell of the Program Store. -/
def State.writeCell (s : State) (addr v : Word) : State := { s with mem := s.mem.write addr.toNat v }

/-- R32: read a cell of the Program Store. -/
def State.readCell (s : State) (addr : Word) : Word := s.mem.read addr.toNat

/-- R172: append one character to the output stream. -/
def State.emit (s : State) (ch : Byte) : State := { s with output := s.output ++ [ch] }

/-- R90: stop with the terminal status Halted. -/
def State.halt (s : State) : State := { s with status := .halted }

/-- R79, R205, R206: taking a fatal condition. The state is the one before the instruction's fetch, so its pc is
`ipc`, which is recorded as `fault_pc` and stays the pc; nothing else is written. -/
def State.raise (s : State) (r : Reason) : State := { s with status := .aborted r s.pc }

/-- R79: an instruction whose checks all passed gives the state it computed; one whose check failed raises the
reason from the state before its fetch. -/
def complete (s : State) (e : Except Reason State) : Result :=
  match e with
  | .ok t => .next t
  | .error r => .next (s.raise r)

/-- The instruction's own check of R78 phase 2: raise `r` when the bad case holds. -/
def check (bad : Bool) (r : Reason) : Except Reason Unit := if bad then .error r else .ok ()

/-- What the input adapter answers to a request for one character (R175). -/
inductive CharRequest where
  /-- a character, and the state with it taken from the line buffer -/
  | char (ch : Byte) (s : State)
  /-- the host has no line yet (R177) -/
  | wait
  /-- a fatal condition, and the state with the line taken from the host, if one was -/
  | fatal (r : Reason) (s : State)
  deriving DecidableEq, Repr

/-- R175, `InChar()`: serve from the line buffer, or take exactly one line from the host. -/
def inChar (s : State) : CharRequest :=
  match s.inbuf with
  | ch :: cs => .char ch { s with inbuf := cs }
  | [] =>
    match s.input with
    | [] => if s.inputClosed then .fatal .inputExhausted s else .wait
    | [] :: lines => .fatal .emptyInputLine { s with input := lines }
    | (ch :: cs) :: lines => .char ch { s with inbuf := cs, input := lines }

/-- R82, R177: the wait of a blocked `in`: the state stays as it was before the instruction's fetch. -/
def waiting (s : State) : Result := .next s

/-- R70: from Halted and from Aborted there is no step. -/
def noStep (_s : State) : Result := .fault .runEnded

end Sys2Proof.Machine
end

