-- ==== Sys2Proof/Machine/Operands.lean ====
section
/-! DEFINITION. The Operand Resolver and the destination check (40_engine R75, R76, R77; 30_encoding R53, R54). -/

namespace Sys2Proof.Machine

/-- R53: the register number a register-encoded raw operand names, its bits 2 to 0. -/
def registerIndex (raw : Word) : Fin 8 := ⟨raw.toNat % 8, Nat.mod_lt _ (by decide)⟩

/-- R75: a literal, a register's content as it stands, or InvalidOperand. -/
def resolve (s : State) (raw : Word) : Except Reason Word :=
  if raw.toNat < Config.regBase then .ok raw
  else if raw.toNat < Config.firstInvalid then .ok (s.reg (registerIndex raw))
  else .error .invalidOperand

/-- R76: a resolved value that is a cell index, or InvalidAddress. -/
def resolveAddress (s : State) (raw : Word) : Except Reason Word :=
  match resolve s raw with
  | .error r => .error r
  | .ok v => if v.toNat < Config.addressLimit then .ok v else .error .invalidAddress

/-- R77: the register a destination operand names, or InvalidRegisterTarget. -/
def dest (raw : Word) : Except Reason (Fin 8) :=
  if Config.regBase ≤ raw.toNat ∧ raw.toNat < Config.firstInvalid then .ok (registerIndex raw)
  else .error .invalidRegisterTarget

end Sys2Proof.Machine
end

