-- ==== Sys2Proof/Machine/Compare.lean ====
section
/-! DEFINITION. `eq`, `gt` (43_compare R110, R111), and the shape they share with the arithmetic family. -/

namespace Sys2Proof.Machine

/-- R78, R110, R140: `dest a`, `resolve b`, `resolve c`, then the result into the destination; four words. -/
def destSrcSrc (f : Word → Word → Word) (a b c : Word) (s : State) : Result :=
  complete s do
    let d ← dest a
    let vb ← resolve s b
    let vc ← resolve s c
    return (s.advance 4).setReg d (f vb vc)

/-- R110. -/
def execEq (a b c : Word) (s : State) : Result := destSrcSrc eqResult a b c s

/-- R111. -/
def execGt (a b c : Word) (s : State) : Result := destSrcSrc gtResult a b c s

end Sys2Proof.Machine
end

