-- ==== Sys2Proof/Machine/ArithLogic.lean ====
section
/-! DEFINITION. `add`, `mult`, `mod`, `and`, `or`, `not` (45_arith_logic R140 to R147). -/

namespace Sys2Proof.Machine

/-- R140. -/
def execAdd (a b c : Word) (s : State) : Result := destSrcSrc addResult a b c s

/-- R141. -/
def execMult (a b c : Word) (s : State) : Result := destSrcSrc multResult a b c s

/-- R142: ArithmeticError after the operand checks when the divisor is 0. -/
def execMod (a b c : Word) (s : State) : Result :=
  complete s do
    let d ← dest a
    let vb ← resolve s b
    let vc ← resolve s c
    check (!nonZero vc) .arithmeticError
    return (s.advance 4).setReg d (modResult vb vc)

/-- R143. -/
def execAnd (a b c : Word) (s : State) : Result := destSrcSrc andResult a b c s

/-- R144. -/
def execOr (a b c : Word) (s : State) : Result := destSrcSrc orResult a b c s

/-- R145. -/
def execNot (a b : Word) (s : State) : Result :=
  complete s do
    let d ← dest a
    let vb ← resolve s b
    return (s.advance 3).setReg d (notResult vb)

end Sys2Proof.Machine
end

