-- ==== Sys2Proof/Machine/CharIo.lean ====
section
/-! DEFINITION. `out`, `in` (47_char_io R170, R171). -/

namespace Sys2Proof.Machine

/-- R170, R172: one 8-bit character, or InvalidOutputValue from 256 up. -/
def execOut (a : Word) (s : State) : Result :=
  complete s do
    let v ← resolve s a
    check (decide (Config.outLimit ≤ v.toNat)) .invalidOutputValue
    return (s.advance 2).emit (v.setWidth 8)

/-- R171, R175, R177, R178: the destination is checked before the adapter is asked; the machine waits when the host
has no line yet; a line without characters stays taken from the host. -/
def execIn (a : Word) (s : State) : Result :=
  match dest a with
  | .error r => .next (s.raise r)
  | .ok d =>
    match inChar s with
    | .char ch t => .next ((t.advance 2).setReg d (ch.setWidth 16))
    | .wait => waiting s
    | .fatal r t => .next (t.raise r)

end Sys2Proof.Machine
end

