-- ==== Sys2Proof/Machine/Halt.lean ====
section
/-! DEFINITION. `halt`, `noop` and the unassigned opcodes (41_halt_noop R90, R91, R92). -/

namespace Sys2Proof.Machine

/-- R90, R92: the opcode word is passed and the run ends as Halted. -/
def haltAfterOpcode (s : State) : Result := .next (s.advance 1).halt

/-- R90. -/
def execHalt (s : State) : Result := haltAfterOpcode s

/-- R91: only the pc changes. -/
def execNoop (s : State) : Result := .next (s.advance 1)

/-- R92. -/
def execUnassigned22To23 (_op : Word) (s : State) : Result := haltAfterOpcode s

/-- R92. -/
def execUnassigned24To31 (_op : Word) (s : State) : Result := haltAfterOpcode s

/-- R92. -/
def execUnassigned32To63 (_op : Word) (s : State) : Result := haltAfterOpcode s

/-- R92. -/
def execUnassigned64To127 (_op : Word) (s : State) : Result := haltAfterOpcode s

/-- R92. -/
def execUnassigned128To255 (_op : Word) (s : State) : Result := haltAfterOpcode s

/-- R92. -/
def execUnassigned256To511 (_op : Word) (s : State) : Result := haltAfterOpcode s

/-- R92. -/
def execUnassigned512To1023 (_op : Word) (s : State) : Result := haltAfterOpcode s

/-- R92. -/
def execUnassigned1024To2047 (_op : Word) (s : State) : Result := haltAfterOpcode s

/-- R92. -/
def execUnassigned2048To4095 (_op : Word) (s : State) : Result := haltAfterOpcode s

/-- R92. -/
def execUnassigned4096To8191 (_op : Word) (s : State) : Result := haltAfterOpcode s

/-- R92. -/
def execUnassigned8192To16383 (_op : Word) (s : State) : Result := haltAfterOpcode s

/-- R92. -/
def execUnassigned16384To32767 (_op : Word) (s : State) : Result := haltAfterOpcode s

/-- R92. -/
def execUnassigned32768To65535 (_op : Word) (s : State) : Result := haltAfterOpcode s

end Sys2Proof.Machine
end

