-- ==== Sys2Proof/Machine/Jumps.lean ====
section
/-! DEFINITION. `jmp`, `jt`, `jf`, `call`, `ret` (44_jumps_calls R120 to R130). -/

namespace Sys2Proof.Machine

/-- R120. -/
def execJmp (a : Word) (s : State) : Result :=
  complete s do
    let t ← resolveAddress s a
    return s.jump t

/-- R121, R122: jump through `b` when the resolved `a` asks for it; `b` is not looked at otherwise (R57). -/
def jumpWhen (taken : Word → Bool) (a b : Word) (s : State) : Result :=
  complete s do
    let va ← resolve s a
    if taken va then
      let t ← resolveAddress s b
      return s.jump t
    else
      return s.advance 3

/-- R121: taken when the value is not 0. -/
def execJt (a b : Word) (s : State) : Result := jumpWhen nonZero a b s

/-- R122: taken when the value is 0. -/
def execJf (a b : Word) (s : State) : Result := jumpWhen (fun v => !nonZero v) a b s

/-- R127, and R201 for a build whose stack holds at most `depth` words: the address after the operand word is
pushed, then the pc is overwritten; the operand is resolved before anything is written. -/
def callWithin (depth : Option Nat) (a : Word) (s : State) : Result :=
  complete s do
    let t ← resolveAddress s a
    check (stackFull depth s) .stackOverflow
    return ((s.advance 2).stackPush (s.advance 2).pc).jump t

/-- R127, R16: the stack is unbounded. -/
def execCall (a : Word) (s : State) : Result := callWithin Config.stackDepth a s

/-- R128: the word on top of the stack is passed through `resolveAddress`; a raising `ret` does not pop. -/
def execRet (s : State) : Result :=
  complete s do
    match s.stackTop? with
    | none => .error .stackUnderflow
    | some w =>
      let t ← resolveAddress s w
      return s.stackDrop.jump t

end Sys2Proof.Machine
end

