-- ==== Sys2Proof/Machine/MemoryAccess.lean ====
section
/-! DEFINITION. `rmem`, `wmem` (46_memory_access R160, R161, R162). -/

namespace Sys2Proof.Machine

/-- R160: the whole word of the cell, not resolved again. -/
def execRmem (a b : Word) (s : State) : Result :=
  complete s do
    let d ← dest a
    let addr ← resolveAddress s b
    return (s.advance 3).setReg d (s.readCell addr)

/-- R161: the address comes first, the value second. -/
def execWmem (a b : Word) (s : State) : Result :=
  complete s do
    let addr ← resolveAddress s a
    let v ← resolve s b
    return (s.advance 3).writeCell addr v

end Sys2Proof.Machine
end

