-- ==== Sys2Proof/Machine/SetStack.lean ====
section
/-! DEFINITION. `set`, `push`, `pop` (42_set_stack R100, R101, R102). -/

namespace Sys2Proof.Machine

/-- R100. -/
def execSet (a b : Word) (s : State) : Result :=
  complete s do
    let d ← dest a
    let v ← resolve s b
    return (s.advance 3).setReg d v

/-- R101, and R201 for a build whose stack holds at most `depth` words. -/
def pushWithin (depth : Option Nat) (a : Word) (s : State) : Result :=
  complete s do
    let v ← resolve s a
    check (stackFull depth s) .stackOverflow
    return (s.advance 2).stackPush v

/-- R101, R16: the stack is unbounded. -/
def execPush (a : Word) (s : State) : Result := pushWithin Config.stackDepth a s

/-- R102: the popped word is written as it stands, not resolved. -/
def execPop (a : Word) (s : State) : Result :=
  complete s do
    let d ← dest a
    match s.stackTop? with
    | none => .error .stackUnderflow
    | some v => return ((s.advance 2).stackDrop).setReg d v

end Sys2Proof.Machine
end

