-- ==== Sys2Proof/Syntax.lean ====
section
/-! DEFINITION. The instructions: one constructor per row of spec/opcode_table.json (30_encoding R55, R56).
Operands are RAW operand words (R54): what one means is decided when the effect uses it (R57), not here. -/

namespace Sys2Proof

/-- One constructor per row of the opcode table. The 13 `unassigned…` rows partition the opcode words
22 to 65535 (R56, R92); each carries its whole opcode word. -/
inductive Instr where
  | halt
  | set (a b : Word)
  | push (a : Word)
  | pop (a : Word)
  | eq (a b c : Word)
  | gt (a b c : Word)
  | jmp (a : Word)
  | jt (a b : Word)
  | jf (a b : Word)
  | add (a b c : Word)
  | mult (a b c : Word)
  | mod (a b c : Word)
  | and (a b c : Word)
  | or (a b c : Word)
  | not (a b : Word)
  | rmem (a b : Word)
  | wmem (a b : Word)
  | call (a : Word)
  | ret
  | out (a : Word)
  /-- the table's `in` -/
  | input (a : Word)
  | noop
  | unassigned22To23 (op : Word)
  | unassigned24To31 (op : Word)
  | unassigned32To63 (op : Word)
  | unassigned64To127 (op : Word)
  | unassigned128To255 (op : Word)
  | unassigned256To511 (op : Word)
  | unassigned512To1023 (op : Word)
  | unassigned1024To2047 (op : Word)
  | unassigned2048To4095 (op : Word)
  | unassigned4096To8191 (op : Word)
  | unassigned8192To16383 (op : Word)
  | unassigned16384To32767 (op : Word)
  | unassigned32768To65535 (op : Word)
  deriving DecidableEq, Repr

end Sys2Proof
end

