-- ==== Sys2Proof/Machine/Dispatch.lean ====
section
/-! DEFINITION. One arm per constructor of `Instr`, each one call of the instruction's meaning (40_engine R73). -/

namespace Sys2Proof.Machine

def exec (i : Instr) (s : State) : Host.Outcome State Fault Refusal :=
  match i with
  | .halt => Sys2Proof.Machine.execHalt s
  | .set a b => Sys2Proof.Machine.execSet a b s
  | .push a => Sys2Proof.Machine.execPush a s
  | .pop a => Sys2Proof.Machine.execPop a s
  | .eq a b c => Sys2Proof.Machine.execEq a b c s
  | .gt a b c => Sys2Proof.Machine.execGt a b c s
  | .jmp a => Sys2Proof.Machine.execJmp a s
  | .jt a b => Sys2Proof.Machine.execJt a b s
  | .jf a b => Sys2Proof.Machine.execJf a b s
  | .add a b c => Sys2Proof.Machine.execAdd a b c s
  | .mult a b c => Sys2Proof.Machine.execMult a b c s
  | .mod a b c => Sys2Proof.Machine.execMod a b c s
  | .and a b c => Sys2Proof.Machine.execAnd a b c s
  | .or a b c => Sys2Proof.Machine.execOr a b c s
  | .not a b => Sys2Proof.Machine.execNot a b s
  | .rmem a b => Sys2Proof.Machine.execRmem a b s
  | .wmem a b => Sys2Proof.Machine.execWmem a b s
  | .call a => Sys2Proof.Machine.execCall a s
  | .ret => Sys2Proof.Machine.execRet s
  | .out a => Sys2Proof.Machine.execOut a s
  | .input a => Sys2Proof.Machine.execIn a s
  | .noop => Sys2Proof.Machine.execNoop s
  | .unassigned22To23 op => Sys2Proof.Machine.execUnassigned22To23 op s
  | .unassigned24To31 op => Sys2Proof.Machine.execUnassigned24To31 op s
  | .unassigned32To63 op => Sys2Proof.Machine.execUnassigned32To63 op s
  | .unassigned64To127 op => Sys2Proof.Machine.execUnassigned64To127 op s
  | .unassigned128To255 op => Sys2Proof.Machine.execUnassigned128To255 op s
  | .unassigned256To511 op => Sys2Proof.Machine.execUnassigned256To511 op s
  | .unassigned512To1023 op => Sys2Proof.Machine.execUnassigned512To1023 op s
  | .unassigned1024To2047 op => Sys2Proof.Machine.execUnassigned1024To2047 op s
  | .unassigned2048To4095 op => Sys2Proof.Machine.execUnassigned2048To4095 op s
  | .unassigned4096To8191 op => Sys2Proof.Machine.execUnassigned4096To8191 op s
  | .unassigned8192To16383 op => Sys2Proof.Machine.execUnassigned8192To16383 op s
  | .unassigned16384To32767 op => Sys2Proof.Machine.execUnassigned16384To32767 op s
  | .unassigned32768To65535 op => Sys2Proof.Machine.execUnassigned32768To65535 op s

end Sys2Proof.Machine
end

