-- ==== Sys2Proof/WellFormed.lean ====
section
/-! DEFINITION. Which terms of `Instr` stand for an encoding. An assigned instruction takes any operand words
(30_encoding R57, R58: there is no check of operands before they are used); an unassigned one carries an opcode
word of its own row of the table (R56). -/

namespace Sys2Proof

/-- The opcode word lies in the row's range, both ends included. -/
def opcodeWithin (lo hi : Nat) (op : Word) : Bool := decide (lo ≤ op.toNat) && decide (op.toNat ≤ hi)

/-- The instruction has an encoding (R55, R56). -/
def Instr.wellFormed : Instr → Bool
  | .halt => true
  | .set _ _ => true
  | .push _ => true
  | .pop _ => true
  | .eq _ _ _ => true
  | .gt _ _ _ => true
  | .jmp _ => true
  | .jt _ _ => true
  | .jf _ _ => true
  | .add _ _ _ => true
  | .mult _ _ _ => true
  | .mod _ _ _ => true
  | .and _ _ _ => true
  | .or _ _ _ => true
  | .not _ _ => true
  | .rmem _ _ => true
  | .wmem _ _ => true
  | .call _ => true
  | .ret => true
  | .out _ => true
  | .input _ => true
  | .noop => true
  | .unassigned22To23 op => opcodeWithin 22 23 op
  | .unassigned24To31 op => opcodeWithin 24 31 op
  | .unassigned32To63 op => opcodeWithin 32 63 op
  | .unassigned64To127 op => opcodeWithin 64 127 op
  | .unassigned128To255 op => opcodeWithin 128 255 op
  | .unassigned256To511 op => opcodeWithin 256 511 op
  | .unassigned512To1023 op => opcodeWithin 512 1023 op
  | .unassigned1024To2047 op => opcodeWithin 1024 2047 op
  | .unassigned2048To4095 op => opcodeWithin 2048 4095 op
  | .unassigned4096To8191 op => opcodeWithin 4096 8191 op
  | .unassigned8192To16383 op => opcodeWithin 8192 16383 op
  | .unassigned16384To32767 op => opcodeWithin 16384 32767 op
  | .unassigned32768To65535 op => opcodeWithin 32768 65535 op

end Sys2Proof
end

