-- ==== Sys2Proof/Decode.lean ====
section
/-! DEFINITION. The decoder and the encoder (30_encoding R50 to R57, R62; 40_engine R73) and the byte order of the
image (20_memory R35). Decoding looks at the opcode word only; operand words are taken as they are (R57). -/

namespace Sys2Proof

/-- Why a list of words or bytes holds no whole instruction. -/
inductive DecodeError where
  /-- there is no word at all -/
  | noOpcode
  /-- fewer words follow the opcode than its arity asks for -/
  | missingOperand (op : Word)
  /-- an odd number of bytes is no list of words (R223) -/
  | oddBytes
  deriving DecidableEq, Repr

/-- R73: how many operand words an opcode word declares. -/
def arity (op : Word) : Nat :=
  match op.toNat with
  | 1 | 7 | 8 | 14 | 15 | 16 => 2
  | 2 | 3 | 6 | 17 | 19 | 20 => 1
  | 4 | 5 | 9 | 10 | 11 | 12 | 13 => 3
  | _ => 0

/-- R56, R92: the row of the table that an unassigned opcode word (22 to 65535) falls in. -/
def unassignedRow (op : Word) : Instr :=
  if op.toNat ≤ 23 then .unassigned22To23 op
  else if op.toNat ≤ 31 then .unassigned24To31 op
  else if op.toNat ≤ 63 then .unassigned32To63 op
  else if op.toNat ≤ 127 then .unassigned64To127 op
  else if op.toNat ≤ 255 then .unassigned128To255 op
  else if op.toNat ≤ 511 then .unassigned256To511 op
  else if op.toNat ≤ 1023 then .unassigned512To1023 op
  else if op.toNat ≤ 2047 then .unassigned1024To2047 op
  else if op.toNat ≤ 4095 then .unassigned2048To4095 op
  else if op.toNat ≤ 8191 then .unassigned4096To8191 op
  else if op.toNat ≤ 16383 then .unassigned8192To16383 op
  else if op.toNat ≤ 32767 then .unassigned16384To32767 op
  else .unassigned32768To65535 op

/-- R55: the instruction an opcode word selects, over the operand words in fetch order; an operand beyond the
opcode's arity is not used. -/
def instrOf (op a b c : Word) : Instr :=
  match op.toNat with
  | 0 => .halt
  | 1 => .set a b
  | 2 => .push a
  | 3 => .pop a
  | 4 => .eq a b c
  | 5 => .gt a b c
  | 6 => .jmp a
  | 7 => .jt a b
  | 8 => .jf a b
  | 9 => .add a b c
  | 10 => .mult a b c
  | 11 => .mod a b c
  | 12 => .and a b c
  | 13 => .or a b c
  | 14 => .not a b
  | 15 => .rmem a b
  | 16 => .wmem a b
  | 17 => .call a
  | 18 => .ret
  | 19 => .out a
  | 20 => .input a
  | 21 => .noop
  | _ => unassignedRow op

/-- R50, R73: the instruction at the head of a list of words, with the words after it. Total: a list long enough
for its opcode's arity always decodes. -/
def decode (ws : List Word) : Except DecodeError (Instr × List Word) :=
  match ws with
  | [] => .error .noOpcode
  | op :: rest =>
    if rest.length < arity op then .error (.missingOperand op)
    else .ok (instrOf op (rest.getD 0 0) (rest.getD 1 0) (rest.getD 2 0), rest.drop (arity op))

/-- R35, R223: bytes in pairs, the one at the lower offset the low-order byte; none for an odd number of bytes. -/
def wordsOfBytes : List Byte → Option (List Word)
  | [] => some []
  | [_] => none
  | lo :: hi :: rest => (wordsOfBytes rest).map (BitVec.ofNat 16 (lo.toNat + 256 * hi.toNat) :: ·)

/-- R62: an instruction read from image bytes. -/
def decodeBytes (bs : List Byte) : Except DecodeError (Instr × List Word) :=
  match wordsOfBytes bs with
  | none => .error .oddBytes
  | some ws => decode ws

/-- R51, R55: the words of an instruction, the opcode word first, then its operands in address order. -/
def encode : Instr → List Word
  | .halt => [0]
  | .set a b => [1, a, b]
  | .push a => [2, a]
  | .pop a => [3, a]
  | .eq a b c => [4, a, b, c]
  | .gt a b c => [5, a, b, c]
  | .jmp a => [6, a]
  | .jt a b => [7, a, b]
  | .jf a b => [8, a, b]
  | .add a b c => [9, a, b, c]
  | .mult a b c => [10, a, b, c]
  | .mod a b c => [11, a, b, c]
  | .and a b c => [12, a, b, c]
  | .or a b c => [13, a, b, c]
  | .not a b => [14, a, b]
  | .rmem a b => [15, a, b]
  | .wmem a b => [16, a, b]
  | .call a => [17, a]
  | .ret => [18]
  | .out a => [19, a]
  | .input a => [20, a]
  | .noop => [21]
  | .unassigned22To23 op => [op]
  | .unassigned24To31 op => [op]
  | .unassigned32To63 op => [op]
  | .unassigned64To127 op => [op]
  | .unassigned128To255 op => [op]
  | .unassigned256To511 op => [op]
  | .unassigned512To1023 op => [op]
  | .unassigned1024To2047 op => [op]
  | .unassigned2048To4095 op => [op]
  | .unassigned4096To8191 op => [op]
  | .unassigned8192To16383 op => [op]
  | .unassigned16384To32767 op => [op]
  | .unassigned32768To65535 op => [op]

/-- R62: the image bytes of a list of words, low byte first. -/
def bytesOfWords : List Word → List Byte
  | [] => []
  | w :: ws => w.setWidth 8 :: (w >>> 8).setWidth 8 :: bytesOfWords ws

/-- The four words (the longest instruction, R50) whose bits, numbered as spec/opcode_table.json numbers them, are
the low `nbits` bits of `w`; every bit above is 0. -/
def tableWords (nbits w : Nat) : List Word :=
  let v := w % 2 ^ nbits
  [BitVec.ofNat 16 v, BitVec.ofNat 16 (v / 2 ^ 16), BitVec.ofNat 16 (v / 2 ^ 32), BitVec.ofNat 16 (v / 2 ^ 48)]

/-- The instruction the decoder reads from an instruction with bits `w` (see `tableWords`). -/
def decodeTableWord (nbits w : Nat) : Option Instr :=
  match decode (tableWords nbits w) with
  | .ok (i, _) => some i
  | .error _ => none

end Sys2Proof
end

