-- ==== Sys2Proof/Machine/Fetch.lean ====
section
/-! DEFINITION. Fetching an instruction from the Program Store (40_engine R71, R72, R73), and placing one there. -/

namespace Sys2Proof.Machine

/-- R72: `n` operand words from cell `addr` on; none where the Program Store ends before the last of them. -/
def fetchOperands (m : Memory) (addr : Nat) (n : Nat) : Option (List Word) :=
  match n with
  | 0 => some []
  | k + 1 =>
    if Config.memWords ≤ addr then none
    else (fetchOperands m (addr + 1) k).map (m.read addr :: ·)

/-- What the fetch of an instruction finds. -/
inductive Fetched where
  /-- R71: the pc has left the Program Store -/
  | endOfStore
  /-- R72: the Program Store ends inside the instruction -/
  | truncated
  /-- R73: an instruction -/
  | instr (i : Instr)
  deriving DecidableEq, Repr

/-- R71, R72, R73: the opcode word at the pc, then as many operand words as its arity, then the decoder. -/
def fetch (s : State) : Fetched :=
  if Config.memWords ≤ s.pc.toNat then .endOfStore
  else
    match fetchOperands s.mem (s.pc.toNat + 1) (arity (s.mem.read s.pc.toNat)) with
    | none => .truncated
    | some operands =>
      match decode (s.mem.read s.pc.toNat :: operands) with
      | .ok (i, _) => .instr i
      | .error _ => .truncated

/-- R71: reaching the end of the Program Store ends the run as Halted and changes nothing else. -/
def endOfStore (s : State) : Result := .next s.halt

/-- R72, R199: an instruction cut off by the end of the Program Store aborts the run. -/
def truncatedInstruction (s : State) : Result := .next (s.raise .truncatedInstruction)

/-- The words placed in consecutive cells from `addr` on, those beyond the Program Store left out. -/
def Memory.place (m : Memory) (addr : Nat) (ws : List Word) : Memory :=
  match ws with
  | [] => m
  | w :: rest => Memory.place (if addr < Config.memWords then m.write addr w else m) (addr + 1) rest

end Sys2Proof.Machine
end

