-- ==== Sys2Proof/Machine/Step.lean ====
section
/-! DEFINITION. One step of the Engine (40_engine R70), and an instruction placed where the next step fetches it. -/

namespace Sys2Proof.Machine

/-- R70: a step is enabled only when the status is Running; it is the fetch and the instruction's meaning. -/
def step (s : State) : Host.Outcome State Fault Refusal :=
  match s.status with
  | .running =>
    match fetch s with
    | .endOfStore => endOfStore s
    | .truncated => truncatedInstruction s
    | .instr i => exec i s
  | .halted => noStep s
  | .aborted _ _ => noStep s

/-- The four words of a table word stored from the pc on, and the status a fetch needs (log entry 20). It stands for
a load of the Program Store, with a pc of at most 32764. -/
def State.withFetchWord (s : State) (nbits w : Nat) : State :=
  { s with mem := s.mem.place s.pc.toNat (tableWords nbits w), status := .running }

end Sys2Proof.Machine
end

