-- ==== Sys2Proof/Machine/HostIo.lean ====
section
/-! DEFINITION. What the host does and sees while the machine runs: the IN and STATUS interfaces
(70_reset R228; 47_char_io R176, R177; 60_exceptions R202, R207). The OUT interface is the field `output`. -/

namespace Sys2Proof.Machine

/-- R177: the host makes one more line available; after it has closed the input it may not (R228), and nothing
changes (log entry 22). -/
def State.deliverLine (s : State) (line : List Byte) : State :=
  if s.inputClosed then s else { s with input := s.input ++ [line] }

/-- R177: the host declares the input finished. -/
def State.closeInput (s : State) : State := { s with inputClosed := true }

/-- R176, D13: the host shim takes one trailing CR LF from a raw line, else one trailing LF, else nothing. -/
def stripTerminator (raw : List Byte) : List Byte :=
  if [13, 10] <:+ raw then raw.dropLast.dropLast
  else if [10] <:+ raw then raw.dropLast
  else raw

/-- R207: what the host reads of the status: the run goes on, or ended well, or failed with a reason and, but for a
refused load (R198, R206), `fault_pc`. -/
inductive Signal where
  | noneYet
  | success
  | failure (reason : Reason) (faultPc : Option Word)
  deriving DecidableEq, Repr

/-- R207, R228: the STATUS interface. -/
def State.signal (s : State) : Signal :=
  match s.status with
  | .running => .noneYet
  | .halted => .success
  | .aborted r p => .failure r (some p)

/-- R198, R226, R227: what the host reads after a load: a refused one is a failure before the first step. -/
def loadSignal (loaded : Except Reason State) : Signal :=
  match loaded with
  | .ok s => s.signal
  | .error r => .failure r none

/-- R202, D17: the number of a status. Labels only. -/
def Status.code : Status → Nat
  | .running => 0
  | .halted => 1
  | .aborted _ _ => 2

/-- R190, R202, D17: the number of a reason. Labels only. -/
def Reason.code : Reason → Nat
  | .malformedImage => 1
  | .invalidOperand => 2
  | .invalidAddress => 3
  | .invalidRegisterTarget => 4
  | .stackUnderflow => 5
  | .invalidOutputValue => 6
  | .inputExhausted => 7
  | .arithmeticError => 8
  | .truncatedInstruction => 9
  | .emptyInputLine => 10
  | .stackOverflow => 11
  | .imageTooLarge => 12

end Sys2Proof.Machine
end

