-- ==== Sys2Proof/Machine/Load.lean ====
section
/-! DEFINITION. The LOAD interface: the start state an image gives (70_reset R220 to R228). -/

namespace Sys2Proof.Machine

/-- R225: words in consecutive cells from `addr` on, in canonical form. -/
def cellsFrom (addr : Nat) (ws : List Word) : Memory :=
  match ws with
  | [] => []
  | w :: rest =>
    if w = Config.padWord then cellsFrom (addr + 1) rest else (addr, w) :: cellsFrom (addr + 1) rest

/-- R227: the words the store holds after loading `ws` in a build that pads with `pad`; a cell left out reads
`Config.padWord`. -/
def paddedImage (pad : Word) (ws : List Word) : List Word :=
  if pad = Config.padWord then ws else ws ++ List.replicate (Config.memWords - ws.length) pad

/-- R225, R227: load an array of words, in a build that pads with `pad`. -/
def loadWordsPadded (pad : Word) (ws : List Word) : Except Reason State :=
  if Config.memWords < ws.length then .error .imageTooLarge
  else .ok { State.reset with mem := cellsFrom 0 (paddedImage pad ws) }

/-- R223, R226: load an image of bytes, in a build that pads with `pad`. -/
def loadPadded (pad : Word) (image : List Byte) : Except Reason State :=
  match wordsOfBytes image with
  | none => .error .malformedImage
  | some ws => loadWordsPadded pad ws

/-- R220 to R227: the start state for an image; an error is a refused load, from which nothing runs. -/
def load (image : List Byte) : Except Reason State := loadPadded Config.padWord image

end Sys2Proof.Machine
end

