-- ==== Sys2Proof/Safety.lean ====
section
/-! DEFINITION. The terms claims are stated in: what an operand word stands for, said by the spec's inequalities and
not by the model's resolver (30_encoding R53, R54); how an instruction aborts (R79, R204); the invariant of every
step; the runs of the machine (40_engine R81). -/

namespace Sys2Proof.Machine

/-- R53, R75: the value a raw operand stands for in a src position: itself below 32768, a register's content from
32768 to 32775; an invalid word stands for none. -/
abbrev OperandIs (s : State) (raw v : Word) : Prop :=
  (raw.toNat < 32768 ∧ v = raw) ∨ ∃ i : Fin 8, raw.toNat = 32768 + i.val ∧ v = s.x.get i

/-- R54, R76: the cell a raw operand stands for in an addr position. -/
abbrev AddressIs (s : State) (raw t : Word) : Prop := OperandIs s raw t ∧ t.toNat < 32768

/-- R77: the register a raw operand names in a dest position. -/
abbrev DestIs (raw : Word) (d : Fin 8) : Prop := raw.toNat = 32768 + d.val

/-- R53: the operand word is invalid. -/
abbrev InvalidRaw (raw : Word) : Prop := 32776 ≤ raw.toNat

/-- R77, R193: the operand word is not register-encoded. -/
abbrev NotRegister (raw : Word) : Prop := raw.toNat < 32768 ∨ 32776 ≤ raw.toNat

/-- R192: the operand names a register that holds no cell index. -/
abbrev NoCellInRegister (s : State) (raw : Word) : Prop :=
  ∃ i : Fin 8, raw.toNat = 32768 + i.val ∧ 32768 ≤ (s.x.get i).toNat

/-- R79, R205, R206: the instruction aborts with `r`: the status records it and the address of the opcode word, and
nothing else changes. -/
abbrev Aborts (i : Instr) (s : State) (r : Reason) : Prop :=
  exec i s = .next { s with status := .aborted r s.pc }

/-- R204: the operand checks of an instruction `dest a, src b, src c`, in order. -/
abbrev DestSrcSrcAborts (i : Instr) (a b c : Word) (s : State) : Prop :=
  (NotRegister a → Aborts i s .invalidRegisterTarget) ∧
  (¬ NotRegister a → InvalidRaw b ∨ InvalidRaw c → Aborts i s .invalidOperand)

/-- R204: the operand checks of an instruction `dest a, src b`, in order. -/
abbrev DestSrcAborts (i : Instr) (a b : Word) (s : State) : Prop :=
  (NotRegister a → Aborts i s .invalidRegisterTarget) ∧
  (¬ NotRegister a → InvalidRaw b → Aborts i s .invalidOperand)

/-- R204: the two checks of an operand `raw` in an addr position. -/
abbrev AddrAborts (i : Instr) (raw : Word) (s : State) : Prop :=
  (InvalidRaw raw → Aborts i s .invalidOperand) ∧ (NoCellInRegister s raw → Aborts i s .invalidAddress)

/-- R54: the destination operand of the instructions that write a register. -/
def destOperand? : Instr → Option Word
  | .set a _ => some a
  | .pop a => some a
  | .eq a _ _ => some a
  | .gt a _ _ => some a
  | .add a _ _ => some a
  | .mult a _ _ => some a
  | .mod a _ _ => some a
  | .and a _ _ => some a
  | .or a _ _ => some a
  | .not a _ => some a
  | .rmem a _ => some a
  | .input a => some a
  | .halt => none
  | .push _ => none
  | .jmp _ => none
  | .jt _ _ => none
  | .jf _ _ => none
  | .wmem _ _ => none
  | .call _ => none
  | .ret => none
  | .out _ => none
  | .noop => none
  | .unassigned22To23 _ => none
  | .unassigned24To31 _ => none
  | .unassigned32To63 _ => none
  | .unassigned64To127 _ => none
  | .unassigned128To255 _ => none
  | .unassigned256To511 _ => none
  | .unassigned512To1023 _ => none
  | .unassigned1024To2047 _ => none
  | .unassigned2048To4095 _ => none
  | .unassigned4096To8191 _ => none
  | .unassigned8192To16383 _ => none
  | .unassigned16384To32767 _ => none
  | .unassigned32768To65535 _ => none

/-- R190, R198, R201: the reasons an instruction of this machine can raise; the other three are the loader's or
belong to a build with a finite stack. -/
def Reason.ofInstruction : Reason → Bool
  | .malformedImage => false
  | .stackOverflow => false
  | .imageTooLarge => false
  | .invalidOperand => true
  | .invalidAddress => true
  | .invalidRegisterTarget => true
  | .stackUnderflow => true
  | .invalidOutputValue => true
  | .inputExhausted => true
  | .arithmeticError => true
  | .truncatedInstruction => true
  | .emptyInputLine => true

/-- R206: an Aborted status records the pc, which lies in the Program Store, and a reason of an instruction. -/
def Status.goodFor (pc : Word) : Status → Bool
  | .running => true
  | .halted => true
  | .aborted r p => decide (p = pc) && decide (p.toNat < 32768) && r.ofInstruction

/-- What every step keeps: the store's canonical form, R14's bound on the pc, and R79's and R206's Aborted status. -/
def Inv (s : State) : Prop :=
  s.mem.wf = true ∧ s.pc.toNat ≤ 32768 ∧ s.status.goodFor s.pc = true

/-- R81, R228, R230: the states of the runs of the machine: a loaded image, then steps and host moves. -/
inductive Reachable : State → Prop where
  | start {pad : Word} {image : List Byte} {s : State} : loadPadded pad image = .ok s → Reachable s
  | step {s t : State} : Reachable s → Machine.step s = .next t → Reachable t
  | line {s : State} (l : List Byte) : Reachable s → Reachable (s.deliverLine l)
  | close {s : State} : Reachable s → Reachable s.closeInput

/-- The effects of several instructions, one after another, as long as the status stays Running. -/
def execAll (is : List Instr) (s : State) : Option State :=
  match is with
  | [] => some s
  | i :: rest =>
    match exec i s with
    | .next t => if t.status = .running then execAll rest t else none
    | .fault _ => none
    | .refused _ => none

/-- The characters the machine can still be given without a further host move (R174, R175). -/
def State.pendingChars (s : State) : List Byte := s.inbuf ++ s.input.flatten

/-- An outcome with the next state changed by `f`; for comparing two runs. -/
def mapNext (f : State → State) (r : Result) : Result :=
  match r with
  | .next s => .next (f s)
  | .fault e => .fault e
  | .refused e => .refused e

end Sys2Proof.Machine
end

