-- ==== Sys2Proof/Certificates/Slice0/Obligations.lean ====
section
/-! DEFINITION. The statements for the provers. Each docstring names the rule of the spec it formalises. -/

open Sys2Proof Sys2Proof.Machine

section Instructions

/-- R90: `halt` passes its word, writes nothing else and stops with the status Halted, which the host reads as
success; it cannot abort. -/
def Obligations.HaltStopsAfterItsWord : Prop :=
  ∀ s : State,
    decode [0] = .ok (.halt, []) ∧
    exec .halt s = .next { s with status := .halted, pc := s.pc + 1 } ∧
    ({ s with status := .halted, pc := s.pc + 1 } : State).signal = .success

/-- R91: `noop` changes the pc only. -/
def Obligations.NoopOnlyAdvancesThePc : Prop :=
  ∀ s : State,
    decode [21] = .ok (.noop, []) ∧ exec .noop s = .next { s with pc := s.pc + 1 }

/-- R92: every word from 22 to 65535 in opcode position decodes, without operand words, to a well-formed unassigned
instruction that carries it, and each of the 13 has the effect of `halt`. -/
def Obligations.UnassignedOpcodeHalts : Prop :=
  ∀ (op : Word) (rest : List Word) (s : State),
    exec (.unassigned22To23 op) s = .next { s with status := .halted, pc := s.pc + 1 } ∧
    exec (.unassigned24To31 op) s = .next { s with status := .halted, pc := s.pc + 1 } ∧
    exec (.unassigned32To63 op) s = .next { s with status := .halted, pc := s.pc + 1 } ∧
    exec (.unassigned64To127 op) s = .next { s with status := .halted, pc := s.pc + 1 } ∧
    exec (.unassigned128To255 op) s = .next { s with status := .halted, pc := s.pc + 1 } ∧
    exec (.unassigned256To511 op) s = .next { s with status := .halted, pc := s.pc + 1 } ∧
    exec (.unassigned512To1023 op) s = .next { s with status := .halted, pc := s.pc + 1 } ∧
    exec (.unassigned1024To2047 op) s = .next { s with status := .halted, pc := s.pc + 1 } ∧
    exec (.unassigned2048To4095 op) s = .next { s with status := .halted, pc := s.pc + 1 } ∧
    exec (.unassigned4096To8191 op) s = .next { s with status := .halted, pc := s.pc + 1 } ∧
    exec (.unassigned8192To16383 op) s = .next { s with status := .halted, pc := s.pc + 1 } ∧
    exec (.unassigned16384To32767 op) s = .next { s with status := .halted, pc := s.pc + 1 } ∧
    exec (.unassigned32768To65535 op) s = .next { s with status := .halted, pc := s.pc + 1 } ∧
    (22 ≤ op.toNat → ∃ i : Instr, decode (op :: rest) = .ok (i, rest) ∧ i.wellFormed = true ∧ encode i = [op] ∧
      exec i s = .next { s with status := .halted, pc := s.pc + 1 })

/-- R100: `set`. The order of its checks and what an abort leaves are the spec's decisions D6, D7 and D8 (log entries
5, 6). -/
def Obligations.SetMovesTheWholeWord : Prop :=
  ∀ (a b : Word) (s : State),
    decode [1, a, b] = .ok (.set a b, []) ∧
    (∀ (d : Fin 8) (v : Word), DestIs a d → OperandIs s b v →
      exec (.set a b) s = .next { s with x := s.x.set d v, pc := s.pc + 3 }) ∧
    DestSrcAborts (.set a b) a b s

/-- R101: `push`. The order of its checks and what an abort leaves are the spec's decisions D6, D7 and D8 (log entries
5, 6). -/
def Obligations.PushAppendsTheResolvedWord : Prop :=
  ∀ (a : Word) (s : State),
    decode [2, a] = .ok (.push a, []) ∧
    (∀ v : Word, OperandIs s a v →
      exec (.push a) s = .next { s with stack := s.stack ++ [v], pc := s.pc + 2 }) ∧
    (InvalidRaw a → Aborts (.push a) s .invalidOperand)

/-- R102: `pop`. The order of its checks and what an abort leaves are the spec's decisions D6, D7 and D8 (log entries
5, 6). -/
def Obligations.PopMovesTheTopToTheRegister : Prop :=
  ∀ (a : Word) (s : State),
    decode [3, a] = .ok (.pop a, []) ∧
    (∀ (d : Fin 8) (below : List Word) (v : Word), DestIs a d → s.stack = below ++ [v] →
      exec (.pop a) s = .next { s with x := s.x.set d v, stack := below, pc := s.pc + 2 }) ∧
    (NotRegister a → Aborts (.pop a) s .invalidRegisterTarget) ∧
    (¬ NotRegister a → s.stack = [] → Aborts (.pop a) s .stackUnderflow)

/-- R110: `eq` compares all 16 bits. The order of its checks and what an abort leaves are the spec's decisions D6, D7
and D8 (log entries 5, 6). -/
def Obligations.EqWritesOneWhenEqual : Prop :=
  ∀ (a b c : Word) (s : State),
    decode [4, a, b, c] = .ok (.eq a b c, []) ∧
    (∀ (d : Fin 8) (vb vc : Word), DestIs a d → OperandIs s b vb → OperandIs s c vc →
      exec (.eq a b c) s =
        .next { s with x := s.x.set d (if vb.toNat = vc.toNat then 1 else 0), pc := s.pc + 4 }) ∧
    DestSrcSrcAborts (.eq a b c) a b c s

/-- R111: `gt` is strict and unsigned. The order of its checks and what an abort leaves are the spec's decisions D6,
D7 and D8 (log entries 5, 6). -/
def Obligations.GtWritesOneWhenGreater : Prop :=
  ∀ (a b c : Word) (s : State),
    decode [5, a, b, c] = .ok (.gt a b c, []) ∧
    (∀ (d : Fin 8) (vb vc : Word), DestIs a d → OperandIs s b vb → OperandIs s c vc →
      exec (.gt a b c) s =
        .next { s with x := s.x.set d (if vb.toNat > vc.toNat then 1 else 0), pc := s.pc + 4 }) ∧
    DestSrcSrcAborts (.gt a b c) a b c s

/-- R120: `jmp`. The order of its checks and what an abort leaves are the spec's decisions D6, D7 and D8 (log entries
5, 6). -/
def Obligations.JmpSetsThePc : Prop :=
  ∀ (a : Word) (s : State),
    decode [6, a] = .ok (.jmp a, []) ∧
    (∀ t : Word, AddressIs s a t → exec (.jmp a) s = .next { s with pc := t }) ∧
    AddrAborts (.jmp a) a s

/-- R121: `jt`; the operand `b` is looked at only when the jump is taken. The order of its checks and what an abort
leaves are the spec's decisions D6, D7 and D8 (log entries 5, 6). -/
def Obligations.JtJumpsOnNonzero : Prop :=
  ∀ (a b : Word) (s : State),
    decode [7, a, b] = .ok (.jt a b, []) ∧
    (∀ va t : Word, OperandIs s a va → va.toNat ≠ 0 → AddressIs s b t →
      exec (.jt a b) s = .next { s with pc := t }) ∧
    (∀ va : Word, OperandIs s a va → va.toNat = 0 → exec (.jt a b) s = .next { s with pc := s.pc + 3 }) ∧
    (InvalidRaw a → Aborts (.jt a b) s .invalidOperand) ∧
    (∀ va : Word, OperandIs s a va → va.toNat ≠ 0 → AddrAborts (.jt a b) b s)

/-- R122: `jf`, the mirror of `jt`. The order of its checks and what an abort leaves are the spec's decisions D6, D7
and D8 (log entries 5, 6). -/
def Obligations.JfJumpsOnZero : Prop :=
  ∀ (a b : Word) (s : State),
    decode [8, a, b] = .ok (.jf a b, []) ∧
    (∀ va t : Word, OperandIs s a va → va.toNat = 0 → AddressIs s b t →
      exec (.jf a b) s = .next { s with pc := t }) ∧
    (∀ va : Word, OperandIs s a va → va.toNat ≠ 0 → exec (.jf a b) s = .next { s with pc := s.pc + 3 }) ∧
    (InvalidRaw a → Aborts (.jf a b) s .invalidOperand) ∧
    (∀ va : Word, OperandIs s a va → va.toNat = 0 → AddrAborts (.jf a b) b s)

/-- R127: `call` pushes the address of the cell after its operand. The order of its checks and what an abort leaves
are the spec's decisions D6, D7 and D8 (log entries 5, 6). -/
def Obligations.CallPushesTheReturnAddress : Prop :=
  ∀ (a : Word) (s : State),
    decode [17, a] = .ok (.call a, []) ∧
    (∀ t : Word, AddressIs s a t →
      exec (.call a) s = .next { s with stack := s.stack ++ [s.pc + 2], pc := t }) ∧
    AddrAborts (.call a) a s

/-- R128: `ret` passes the top word through the address check, so a word from 32768 to 32775 means a register. The
order of its checks and what an abort leaves are the spec's decisions D6, D7 and D8 (log entries 5, 6). -/
def Obligations.RetResolvesTheTopWord : Prop :=
  ∀ s : State,
    decode [18] = .ok (.ret, []) ∧
    (∀ (below : List Word) (w t : Word), s.stack = below ++ [w] → AddressIs s w t →
      exec .ret s = .next { s with stack := below, pc := t }) ∧
    (s.stack = [] → Aborts .ret s .stackUnderflow) ∧
    (∀ (below : List Word) (w : Word), s.stack = below ++ [w] → AddrAborts .ret w s)

/-- R140: `add`. The order of its checks and what an abort leaves are the spec's decisions D6, D7 and D8 (log entries
5, 6). -/
def Obligations.AddWritesTheSumModulo32768 : Prop :=
  ∀ (a b c : Word) (s : State),
    decode [9, a, b, c] = .ok (.add a b c, []) ∧
    (∀ (d : Fin 8) (vb vc : Word), DestIs a d → OperandIs s b vb → OperandIs s c vc →
      exec (.add a b c) s =
        .next { s with x := s.x.set d (BitVec.ofNat 16 ((vb.toNat + vc.toNat) % 32768)), pc := s.pc + 4 }) ∧
    DestSrcSrcAborts (.add a b c) a b c s

/-- R141: `mult`. The order of its checks and what an abort leaves are the spec's decisions D6, D7 and D8 (log entries
5, 6). -/
def Obligations.MultWritesTheProductModulo32768 : Prop :=
  ∀ (a b c : Word) (s : State),
    decode [10, a, b, c] = .ok (.mult a b c, []) ∧
    (∀ (d : Fin 8) (vb vc : Word), DestIs a d → OperandIs s b vb → OperandIs s c vc →
      exec (.mult a b c) s =
        .next { s with x := s.x.set d (BitVec.ofNat 16 ((vb.toNat * vc.toNat) % 32768)), pc := s.pc + 4 }) ∧
    DestSrcSrcAborts (.mult a b c) a b c s

/-- R142: `mod` writes the unsigned remainder, unreduced; a divisor of 0 aborts with ArithmeticError after the operand
checks. That abort is the spec's decision D9 and the missing reduction its decision D10 (log entries 12 and 13); the
order of its checks and what an abort leaves are D6, D7 and D8 (log entries 5, 6). -/
def Obligations.ModWritesTheUnsignedRemainder : Prop :=
  ∀ (a b c : Word) (s : State),
    decode [11, a, b, c] = .ok (.mod a b c, []) ∧
    (∀ (d : Fin 8) (vb vc r : Word) (q : Nat), DestIs a d → OperandIs s b vb → OperandIs s c vc →
      r.toNat < vc.toNat → vb.toNat = q * vc.toNat + r.toNat →
      exec (.mod a b c) s = .next { s with x := s.x.set d r, pc := s.pc + 4 }) ∧
    (∀ (d : Fin 8) (vb vc : Word), DestIs a d → OperandIs s b vb → OperandIs s c vc → vc.toNat = 0 →
      Aborts (.mod a b c) s .arithmeticError) ∧
    DestSrcSrcAborts (.mod a b c) a b c s

/-- R143: `and`: the word written has bit `k` set exactly when both operands have, for all 16 bits. The order of its
checks and what an abort leaves are the spec's decisions D6, D7 and D8 (log entries 5, 6). -/
def Obligations.AndWritesTheBitwiseAnd : Prop :=
  ∀ (a b c : Word) (s : State),
    decode [12, a, b, c] = .ok (.and a b c, []) ∧
    (∀ (d : Fin 8) (vb vc r : Word), DestIs a d → OperandIs s b vb → OperandIs s c vc →
      (∀ k : Nat, k < 16 → r.getLsbD k = (vb.getLsbD k && vc.getLsbD k)) →
      exec (.and a b c) s = .next { s with x := s.x.set d r, pc := s.pc + 4 }) ∧
    DestSrcSrcAborts (.and a b c) a b c s

/-- R144: `or`: the word written has bit `k` set exactly when at least one operand has, for all 16 bits. The order of
its checks and what an abort leaves are the spec's decisions D6, D7 and D8 (log entries 5, 6). -/
def Obligations.OrWritesTheBitwiseOr : Prop :=
  ∀ (a b c : Word) (s : State),
    decode [13, a, b, c] = .ok (.or a b c, []) ∧
    (∀ (d : Fin 8) (vb vc r : Word), DestIs a d → OperandIs s b vb → OperandIs s c vc →
      (∀ k : Nat, k < 16 → r.getLsbD k = (vb.getLsbD k || vc.getLsbD k)) →
      exec (.or a b c) s = .next { s with x := s.x.set d r, pc := s.pc + 4 }) ∧
    DestSrcSrcAborts (.or a b c) a b c s

/-- R145: `not`: bits 14 to 0 complemented, bit 15 cleared. The order of its checks and what an abort leaves are the
spec's decisions D6, D7 and D8 (log entries 5, 6). -/
def Obligations.NotWritesTheFifteenBitComplement : Prop :=
  ∀ (a b : Word) (s : State),
    decode [14, a, b] = .ok (.not a b, []) ∧
    (∀ (d : Fin 8) (vb r : Word), DestIs a d → OperandIs s b vb →
      (∀ k : Nat, k < 15 → r.getLsbD k = !vb.getLsbD k) → r.getLsbD 15 = false →
      exec (.not a b) s = .next { s with x := s.x.set d r, pc := s.pc + 3 }) ∧
    DestSrcAborts (.not a b) a b s

/-- R160: `rmem`. The order of its checks and what an abort leaves are the spec's decisions D6, D7 and D8 (log entries
5, 6). -/
def Obligations.RmemReadsTheCell : Prop :=
  ∀ (a b : Word) (s : State),
    decode [15, a, b] = .ok (.rmem a b, []) ∧
    (∀ (d : Fin 8) (addr : Word), DestIs a d → AddressIs s b addr →
      exec (.rmem a b) s = .next { s with x := s.x.set d (s.mem.read addr.toNat), pc := s.pc + 3 }) ∧
    (NotRegister a → Aborts (.rmem a b) s .invalidRegisterTarget) ∧
    (¬ NotRegister a → AddrAborts (.rmem a b) b s)

/-- R161: `wmem`: the addressed cell reads the value, every other cell as before, and besides it only the pc changes.
The order of its checks and what an abort leaves are the spec's decisions D6, D7 and D8 (log entries 5, 6). -/
def Obligations.WmemWritesTheCell : Prop :=
  ∀ (a b : Word) (s : State),
    decode [16, a, b] = .ok (.wmem a b, []) ∧
    (∀ addr v : Word, AddressIs s a addr → OperandIs s b v →
      ∃ m : Memory, exec (.wmem a b) s = .next { s with mem := m, pc := s.pc + 3 } ∧
        m.read addr.toNat = v ∧ ∀ n : Nat, n ≠ addr.toNat → m.read n = s.mem.read n) ∧
    AddrAborts (.wmem a b) a s ∧
    (∀ addr : Word, AddressIs s a addr → InvalidRaw b → Aborts (.wmem a b) s .invalidOperand)

/-- R170: `out`. The order of its checks and what an abort leaves are the spec's decisions D6, D7 and D8 (log entries
5, 6). -/
def Obligations.OutEmitsOneCharacter : Prop :=
  ∀ (a : Word) (s : State),
    decode [19, a] = .ok (.out a, []) ∧
    (∀ (v : Word) (ch : Byte), OperandIs s a v → v.toNat = ch.toNat →
      exec (.out a) s = .next { s with output := s.output ++ [ch], pc := s.pc + 2 }) ∧
    (InvalidRaw a → Aborts (.out a) s .invalidOperand) ∧
    (∀ v : Word, OperandIs s a v → 256 ≤ v.toNat → Aborts (.out a) s .invalidOutputValue)

/-- R171, R175, R177, R178: `in`, in every case of the line buffer and of the host's answer. That the destination is
checked before the host is asked is the spec's decision D16, and the abort on an empty line, which stays taken from
the host, its decision D14 (log entries 18 and 16); what an abort leaves is D7 and D8 (6), a wait answered by the
state itself is the model's form (8), and the input source is held in State by the model's choice (9). -/
def Obligations.InTakesTheNextCharacter : Prop :=
  ∀ (a : Word) (s : State),
    decode [20, a] = .ok (.input a, []) ∧
    (∀ (d : Fin 8) (ch : Byte) (cs : List Byte), DestIs a d → s.inbuf = ch :: cs →
      exec (.input a) s =
        .next { s with x := s.x.set d (BitVec.ofNat 16 ch.toNat), inbuf := cs, pc := s.pc + 2 }) ∧
    (∀ (d : Fin 8) (ch : Byte) (cs : List Byte) (lines : List (List Byte)), DestIs a d → s.inbuf = [] →
      s.input = (ch :: cs) :: lines →
      exec (.input a) s =
        .next { s with x := s.x.set d (BitVec.ofNat 16 ch.toNat), inbuf := cs, input := lines, pc := s.pc + 2 }) ∧
    (∀ lines : List (List Byte), ¬ NotRegister a → s.inbuf = [] → s.input = [] :: lines →
      exec (.input a) s = .next { s with input := lines, status := .aborted .emptyInputLine s.pc }) ∧
    (¬ NotRegister a → s.inbuf = [] → s.input = [] → s.inputClosed = true → Aborts (.input a) s .inputExhausted) ∧
    (¬ NotRegister a → s.inbuf = [] → s.input = [] → s.inputClosed = false → exec (.input a) s = .next s) ∧
    (NotRegister a → Aborts (.input a) s .invalidRegisterTarget)

end Instructions

section Operands

/-- R75: the resolver: a literal, a register's content as it stands (0 at reset), or InvalidOperand. -/
def Obligations.ResolveGivesLiteralOrRegister : Prop :=
  ∀ (s : State) (raw : Word),
    (raw.toNat < 32768 → resolve s raw = .ok raw) ∧
    (∀ i : Fin 8, raw.toNat = 32768 + i.val → resolve s raw = .ok (s.x.get i) ∧
      resolve State.reset raw = .ok 0) ∧
    (32776 ≤ raw.toNat → resolve s raw = .error .invalidOperand)

/-- R76: the address resolver. -/
def Obligations.ResolveAddressBoundsTheValue : Prop :=
  ∀ (s : State) (raw : Word),
    (∀ v : Word, resolve s raw = .ok v → v.toNat < 32768 → resolveAddress s raw = .ok v) ∧
    (∀ v : Word, resolve s raw = .ok v → 32768 ≤ v.toNat → resolveAddress s raw = .error .invalidAddress) ∧
    (32776 ≤ raw.toNat → resolveAddress s raw = .error .invalidOperand) ∧
    (raw.toNat < 32768 → resolveAddress s raw ≠ .error .invalidAddress) ∧
    (∀ t : Word, resolveAddress s raw = .ok t → t.toNat ≤ 32767)

/-- R77: the destination check, and that every instruction with a destination operand makes it before anything else.
That it comes first, and what an abort leaves, are the spec's decisions D6, D7 and D8 (log entries 5, 6). -/
def Obligations.DestNamesARegisterOrRaises : Prop :=
  ∀ raw : Word,
    (∀ d : Fin 8, raw.toNat = 32768 + d.val → dest raw = .ok d) ∧
    (raw.toNat < 32768 ∨ 32776 ≤ raw.toNat → dest raw = .error .invalidRegisterTarget ∧
      ∀ (i : Instr) (s : State), destOperand? i = some raw → Aborts i s .invalidRegisterTarget)

end Operands

section Encoding

/-- R51, R55: decoding the encoding of any well-formed instruction gives it back, with the words after it. -/
def Obligations.DecodeEncodeRoundTrip : Prop :=
  ∀ (i : Instr) (rest : List Word), i.wellFormed = true → decode (encode i ++ rest) = .ok (i, rest)

/-- R50, R73: decoding is total on lists long enough for the opcode's arity, gives a well-formed instruction whose
encoding is the words read, and only a list too short for the arity is rejected. -/
def Obligations.EncodeInvertsDecode : Prop :=
  ∀ (op : Word) (rest : List Word),
    (arity op ≤ rest.length →
      ∃ i : Instr, decode (op :: rest) = .ok (i, rest.drop (arity op)) ∧ i.wellFormed = true ∧
        encode i = op :: rest.take (arity op)) ∧
    (rest.length < arity op → decode (op :: rest) = .error (.missingOperand op))

/-- R73: the arity of every opcode word. -/
def Obligations.ArityOfEveryOpcode : Prop :=
  ∀ op : Word,
    (op.toNat = 0 ∨ op.toNat = 18 ∨ 21 ≤ op.toNat → arity op = 0) ∧
    (op.toNat = 2 ∨ op.toNat = 3 ∨ op.toNat = 6 ∨ op.toNat = 17 ∨ op.toNat = 19 ∨ op.toNat = 20 → arity op = 1) ∧
    (op.toNat = 1 ∨ op.toNat = 7 ∨ op.toNat = 8 ∨ op.toNat = 14 ∨ op.toNat = 15 ∨ op.toNat = 16 → arity op = 2) ∧
    (op.toNat = 4 ∨ op.toNat = 5 ∨ 9 ≤ op.toNat ∧ op.toNat ≤ 13 → arity op = 3)

/-- R55, R62: words and bytes written out from the spec's table and examples decode to what they stand for. -/
def Obligations.WrittenOutWordsDecode : Prop :=
  decode [19, 65, 0] = .ok (.out 65, [0]) ∧
  decode [1, 32768, 65] = .ok (.set 32768 65, []) ∧
  decode [9, 32768, 32767, 5] = .ok (.add 32768 32767 5, []) ∧
  decode [18] = .ok (.ret, []) ∧
  decode [88, 0] = .ok (.unassigned64To127 88, [0]) ∧
  decode [7, 32769] = .error (.missingOperand 7) ∧
  decodeBytes [0x13, 0x00, 0x41, 0x00, 0x00, 0x00] = .ok (.out 65, [0]) ∧
  decodeBytes [0x13, 0x00, 0x41] = .error .oddBytes

end Encoding

section Steps

/-- R70, R72, R73: at a running state whose cells from the pc on hold the words of a well-formed instruction, a step
is that instruction's meaning on that state (the pc still at the opcode word). -/
def Obligations.StepRunsTheDecodedInstruction : Prop :=
  ∀ (s : State) (i : Instr), s.status = .running → i.wellFormed = true →
    s.pc.toNat + (encode i).length ≤ 32768 →
    (∀ k : Nat, k < (encode i).length → s.mem.read (s.pc.toNat + k) = (encode i).getD k 0) →
    step s = exec i s

/-- R71: an opcode fetch beyond the last cell ends the run as Halted and does nothing else. -/
def Obligations.StepHaltsAtTheEndOfTheStore : Prop :=
  ∀ s : State, s.status = .running → 32768 ≤ s.pc.toNat → step s = .next { s with status := .halted }

/-- R72, R199: an instruction cut off by the end of the store aborts. The spec's decision D4 (log entry 4). -/
def Obligations.StepAbortsOnATruncatedInstruction : Prop :=
  ∀ s : State, s.status = .running → s.pc.toNat < 32768 →
    32768 < s.pc.toNat + 1 + arity (s.mem.read s.pc.toNat) →
    step s = .next { s with status := .aborted .truncatedInstruction s.pc }

/-- R70, R234: a step is enabled exactly in a running state. That the step asked for elsewhere is answered by the
fault `runEnded` is the model's form of "no step" (log entry 7), as is a waiting step that answers its own state (8). -/
def Obligations.StepIsEnabledExactlyWhenRunning : Prop :=
  ∀ s : State,
    (s.status = .running → ∃ t : State, step s = .next t) ∧
    (s.status ≠ .running → step s = .fault .runEnded)

/-- R83: a step ends in Halted exactly by opcode 0, by an unassigned opcode, or at the end of the store. -/
def Obligations.HaltedIsReachedInThreeWays : Prop :=
  ∀ s t : State, s.status = .running → step s = .next t →
    (t.status = .halted ↔
      32768 ≤ s.pc.toNat ∨ (s.mem.read s.pc.toNat).toNat = 0 ∨ 22 ≤ (s.mem.read s.pc.toNat).toNat)

/-- R79, R205, R206: a step that ends in Aborted records the address of the opcode word and writes nothing else, but
for an empty line taken from the host. The spec's decisions D7 and D8 (log entry 6). -/
def Obligations.AbortingStepWritesNothingElse : Prop :=
  ∀ (s t : State) (r : Reason) (p : Word), s.status = .running → step s = .next t → t.status = .aborted r p →
    p = s.pc ∧ t = { s with status := .aborted r s.pc, input := t.input } ∧
    (t.input = s.input ∨ (r = .emptyInputLine ∧ s.inbuf = [] ∧ s.input = [] :: t.input))

/-- R44: what `wmem` stored in a cell is what the next fetch from that cell decodes, from whatever cell it ran. -/
def Obligations.StoredWordIsFetchedNext : Prop :=
  ∀ (a b addr v : Word) (s t : State) (i : Instr) (rest : List Word),
    AddressIs s a addr → OperandIs s b v → exec (.wmem a b) s = .next t →
    addr.toNat + 1 + arity v ≤ 32768 →
    decode [v, s.mem.read (addr.toNat + 1), s.mem.read (addr.toNat + 2), s.mem.read (addr.toNat + 3)] = .ok (i, rest) →
    step { t with pc := addr, status := .running } = exec i { t with pc := addr, status := .running }

/-- R14, R79, R206 and the store's canonical form: every step keeps the invariant. -/
def Obligations.StepKeepsTheInvariant : Prop :=
  ∀ s t : State, Inv s → step s = .next t → Inv t

/-- The state after reset meets the invariant, and so does every loaded image, whatever the build pads with. -/
def Obligations.StartStatesMeetTheInvariant : Prop :=
  Inv State.reset ∧
  ∀ (pad : Word) (image : List Byte) (s : State), loadPadded pad image = .ok s → Inv s

/-- R14, R81: in every state of every run the pc is at most 32768 and the invariant holds. -/
def Obligations.RunsStayInTheInvariant : Prop :=
  ∀ s : State, Reachable s → Inv s ∧ s.pc.toNat ≤ 32768

end Steps

section Frames

/-- R11, R54: frame of every instruction, registers: only the one its destination operand names can change. -/
def Obligations.RegistersChangeOnlyThroughTheDestination : Prop :=
  ∀ (i : Instr) (s t : State), exec i s = .next t →
    ∀ j : Fin 8, (∀ a : Word, destOperand? i = some a → a.toNat ≠ 32768 + j.val) → t.x.get j = s.x.get j

/-- R33: frame of every instruction, memory: only the cell a `wmem` stores to can change. -/
def Obligations.CellsChangeOnlyWhereWmemStores : Prop :=
  ∀ (i : Instr) (s t : State), exec i s = .next t →
    ∀ n : Nat, (∀ a b addr : Word, i = .wmem a b → resolveAddress s a = .ok addr → addr.toNat ≠ n) →
      t.mem.read n = s.mem.read n

/-- R15: frame of every instruction, Call Stack: push and call append one word, pop and ret remove the last one, and
no other instruction changes it. -/
def Obligations.StackChangesOnlyByPushPopCallRet : Prop :=
  ∀ (i : Instr) (s t : State), exec i s = .next t →
    t.stack = s.stack ∨
    ((∃ a : Word, i = .push a ∨ i = .call a) ∧ ∃ w : Word, t.stack = s.stack ++ [w]) ∨
    ((i = .ret ∨ ∃ a : Word, i = .pop a) ∧ ∃ w : Word, s.stack = t.stack ++ [w])

/-- R175, R180: frame of every instruction, input: only `in` takes from the line buffer or the host, and it takes at
most the first character still to come; no instruction closes the input. -/
def Obligations.InputIsTakenOnlyByInInOrder : Prop :=
  ∀ (i : Instr) (s t : State), exec i s = .next t →
    t.inputClosed = s.inputClosed ∧
    ((t.inbuf = s.inbuf ∧ t.input = s.input) ∨
      ((∃ a : Word, i = .input a) ∧
        (t.pendingChars = s.pendingChars ∨ ∃ ch : Byte, s.pendingChars = ch :: t.pendingChars)))

/-- R172, R173: frame of every instruction, output: only `out` emits, one character at the end; nothing is retracted. -/
def Obligations.OutputGrowsOnlyByOut : Prop :=
  ∀ (i : Instr) (s t : State), exec i s = .next t →
    t.output = s.output ∨ ((∃ a : Word, i = .out a) ∧ ∃ ch : Byte, t.output = s.output ++ [ch])

/-- R19, R90, R92, R205: frame of every instruction, status: it stays, or becomes Aborted at this pc, or, by `halt`
and the unassigned opcodes only, Halted. -/
def Obligations.StatusChangesOnlyToATerminalOne : Prop :=
  ∀ (i : Instr) (s t : State), exec i s = .next t →
    t.status = s.status ∨ (∃ r : Reason, t.status = .aborted r s.pc ∧ r.ofInstruction = true) ∨
    (t.status = .halted ∧ (i = .halt ∨ ∃ op : Word, encode i = [op] ∧ (i.wellFormed = true → 22 ≤ op.toNat)))

/-- R13, R74, R129: frame of every instruction, pc: it moves past the instruction's words, or stays (an abort or a
wait), or, for the five control transfers only, becomes a cell index. -/
def Obligations.PcMovesPastTheWordsOrToACell : Prop :=
  ∀ (i : Instr) (s t : State), exec i s = .next t →
    t.pc = s.pc + BitVec.ofNat 16 (encode i).length ∨
    (t.pc = s.pc ∧ ((∃ r : Reason, t.status = .aborted r s.pc) ∨ ∃ a : Word, i = .input a ∧ t = s)) ∨
    (t.pc.toNat < 32768 ∧
      (i = .ret ∨ (∃ a : Word, i = .jmp a ∨ i = .call a) ∨ ∃ a b : Word, i = .jt a b ∨ i = .jf a b))

/-- R20: the output stream is never read: a step with another output so far does the same, to that output. -/
def Obligations.OutputIsNeverRead : Prop :=
  ∀ (s : State) (earlier : List Byte),
    step { s with output := earlier ++ s.output } =
      mapNext (fun t => { t with output := earlier ++ t.output }) (step s)

/-- R20, R25, R175: the machine cannot look ahead in the input: with a character buffered or a line delivered, lines
delivered later change nothing of the step but that they are still there after it. -/
def Obligations.LaterLinesDoNotChangeTheStep : Prop :=
  ∀ (s : State) (later : List (List Byte)), s.inbuf ≠ [] ∨ s.input ≠ [] →
    step { s with input := s.input ++ later } =
      mapNext (fun t => { t with input := t.input ++ later }) (step s)

/-- R146, R147: registers all below 32768 stay so, as long as what `pop` takes and `rmem` reads is below 32768. -/
def Obligations.SmallRegistersStaySmall : Prop :=
  ∀ (i : Instr) (s t : State), exec i s = .next t → (∀ j : Fin 8, (s.x.get j).toNat < 32768) →
    (∀ (a v : Word) (below : List Word), i = .pop a → s.stack = below ++ [v] → v.toNat < 32768) →
    (∀ a b addr : Word, i = .rmem a b → AddressIs s b addr → (s.mem.read addr.toNat).toNat < 32768) →
    ∀ j : Fin 8, (t.x.get j).toNat < 32768

end Frames

section StoreStackAndHost

/-- R32, R33: a cell reads the word last written to it, and a write changes no other cell. -/
def Obligations.ReadAfterWrite : Prop :=
  ∀ (m : Memory) (addr : Nat) (v : Word),
    (m.write addr v).read addr = v ∧ ∀ n : Nat, n ≠ addr → (m.write addr v).read n = m.read n

/-- R33: as stores of the machine (in the model's canonical form, log entry 1), a later write to a cell replaces an
earlier one, writes to two cells commute, and writing back what a cell reads changes nothing. -/
def Obligations.WritesOverrideAndCommute : Prop :=
  ∀ (m : Memory) (addr addr' : Nat) (v v' : Word), m.wf = true → addr < 32768 → addr' < 32768 →
    (m.write addr v).write addr v' = m.write addr v' ∧
    (addr ≠ addr' → (m.write addr v).write addr' v' = (m.write addr' v').write addr v) ∧
    m.write addr (m.read addr) = m

/-- The canonical form of the store is canonical: two stores in that form that read alike everywhere are the same
list. The form is the model's own (log entry 1). -/
def Obligations.StoresThatReadAlikeAreEqual : Prop :=
  ∀ m m' : Memory, m.wf = true → m'.wf = true → (∀ n : Nat, n < 32768 → m.read n = m'.read n) → m = m'

/-- R15, R102: words pushed come back in reverse order: after pushing `vs` and popping `k + 1` times, the register
holds the `k`-th word from the end and the stack the words before it. -/
def Obligations.PopsReturnPushesInReverse : Prop :=
  ∀ (vs : List Word) (d : Fin 8) (a : Word) (s : State) (k : Nat), s.status = .running → DestIs a d →
    (∀ v ∈ vs, v.toNat < 32768) → k < vs.length →
    ∃ t : State, execAll (vs.map Instr.push ++ List.replicate (k + 1) (Instr.pop a)) s = some t ∧
      t.x.get d = vs.reverse.getD k 0 ∧ t.stack = s.stack ++ vs.take (vs.length - (k + 1))

/-- R201: in a build whose stack holds at most `depth` words, `push` and `call` on a full stack raise StackOverflow
and write nothing, and below that they do what the unbounded machine does. -/
def Obligations.FullFiniteStackOverflows : Prop :=
  ∀ (depth : Nat) (a : Word) (s : State),
    (depth ≤ s.stack.length →
      (∀ v : Word, OperandIs s a v →
        pushWithin (some depth) a s = .next { s with status := .aborted .stackOverflow s.pc }) ∧
      (∀ t : Word, AddressIs s a t →
        callWithin (some depth) a s = .next { s with status := .aborted .stackOverflow s.pc })) ∧
    (s.stack.length < depth →
      pushWithin (some depth) a s = exec (.push a) s ∧ callWithin (some depth) a s = exec (.call a) s)

/-- R23, R220, R221: the state after reset. That the line buffer starts empty is marked derived by the spec; that a
cell outside the image reads 0 is its decision D2 (log entries 10 and 2); the input source's start is the model's (9). -/
def Obligations.ResetLeavesTheStatedValues : Prop :=
  (∀ j : Fin 8, State.reset.x.get j = 0) ∧ State.reset.pc = 0 ∧ State.reset.stack = [] ∧ State.reset.inbuf = [] ∧
  State.reset.status = .running ∧ State.reset.output = [] ∧ (∀ n : Nat, State.reset.mem.read n = 0) ∧
  State.reset.input = [] ∧ State.reset.inputClosed = false

/-- R223, R225, R227: an image of `2 L` bytes with `L` at most 32768 loads: cell `n` holds byte `2n` plus 256 times
byte `2n + 1`, every cell from `L` on the padding word of the build, and the rest of the state is that of reset. -/
def Obligations.ImageLoadsLittleEndian : Prop :=
  ∀ (pad : Word) (image : List Byte) (len : Nat), image.length = 2 * len → len ≤ 32768 →
    ∃ m : Memory, loadPadded pad image = .ok { State.reset with mem := m } ∧
      (∀ n : Nat, n < len → (m.read n).toNat = (image.getD (2 * n) 0).toNat + 256 * (image.getD (2 * n + 1) 0).toNat) ∧
      (∀ n : Nat, len ≤ n → n < 32768 → m.read n = pad)

/-- R226, R227: an image with an odd number of bytes is refused as MalformedImage, one of more than 32768 words as
ImageTooLarge (the latter the spec's decision D3, log entry 21). -/
def Obligations.BadImagesAreRefused : Prop :=
  ∀ (pad : Word) (image : List Byte),
    (image.length % 2 = 1 → loadPadded pad image = .error .malformedImage) ∧
    (image.length % 2 = 0 → 65536 < image.length → loadPadded pad image = .error .imageTooLarge)

/-- R177, R82: a machine waiting in `in` stays as it is, and the wait is lifted by a line (the `in` completes with its
first character) or by the end of the input (it aborts). -/
def Obligations.HostLiftsTheWait : Prop :=
  ∀ (a : Word) (d : Fin 8) (s : State) (ch : Byte) (cs : List Byte), DestIs a d → s.status = .running →
    s.pc.toNat + 2 ≤ 32768 → s.mem.read s.pc.toNat = 20 → s.mem.read (s.pc.toNat + 1) = a →
    s.inbuf = [] → s.input = [] → s.inputClosed = false →
    step s = .next s ∧
    step (s.deliverLine (ch :: cs)) =
      .next { s with x := s.x.set d (BitVec.ofNat 16 ch.toNat), inbuf := cs, pc := s.pc + 2 } ∧
    step s.closeInput = .next { s with inputClosed := true, status := .aborted .inputExhausted s.pc }

/-- R176: the host shim takes one trailing CR LF, else one trailing LF, else nothing, and never a content character.
The spec's decision D13 (log entry 15). -/
def Obligations.TerminatorIsStrippedOnce : Prop :=
  ∀ line : List Byte,
    stripTerminator (line ++ [13, 10]) = line ∧
    ((∀ c : Byte, line.getLast? = some c → c ≠ 13) → stripTerminator (line ++ [10]) = line) ∧
    ((∀ c : Byte, line.getLast? = some c → c ≠ 10) → stripTerminator line = line)

end StoreStackAndHost
end

