-- ==== Sys2Proof/Laws/State.lean ====
section
/-! SUPPORT. What each update of the state does to each field, and registers read after a write. -/

namespace Sys2Proof.Machine

@[simp] theorem State.setReg_x (s : State) (i : Fin 8) (v : Word) : (s.setReg i v).x = s.x.set i.val v i.isLt := rfl
@[simp] theorem State.setReg_pc (s : State) (i : Fin 8) (v : Word) : (s.setReg i v).pc = s.pc := rfl
@[simp] theorem State.setReg_stack (s : State) (i : Fin 8) (v : Word) : (s.setReg i v).stack = s.stack := rfl
@[simp] theorem State.setReg_mem (s : State) (i : Fin 8) (v : Word) : (s.setReg i v).mem = s.mem := rfl
@[simp] theorem State.setReg_inbuf (s : State) (i : Fin 8) (v : Word) : (s.setReg i v).inbuf = s.inbuf := rfl
@[simp] theorem State.setReg_status (s : State) (i : Fin 8) (v : Word) : (s.setReg i v).status = s.status := rfl
@[simp] theorem State.setReg_input (s : State) (i : Fin 8) (v : Word) : (s.setReg i v).input = s.input := rfl
@[simp] theorem State.setReg_inputClosed (s : State) (i : Fin 8) (v : Word) : (s.setReg i v).inputClosed = s.inputClosed := rfl
@[simp] theorem State.setReg_output (s : State) (i : Fin 8) (v : Word) : (s.setReg i v).output = s.output := rfl

@[simp] theorem State.advance_x (s : State) (n : Nat) : (s.advance n).x = s.x := rfl
@[simp] theorem State.advance_pc (s : State) (n : Nat) : (s.advance n).pc = s.pc + BitVec.ofNat 16 n := rfl
@[simp] theorem State.advance_stack (s : State) (n : Nat) : (s.advance n).stack = s.stack := rfl
@[simp] theorem State.advance_mem (s : State) (n : Nat) : (s.advance n).mem = s.mem := rfl
@[simp] theorem State.advance_inbuf (s : State) (n : Nat) : (s.advance n).inbuf = s.inbuf := rfl
@[simp] theorem State.advance_status (s : State) (n : Nat) : (s.advance n).status = s.status := rfl
@[simp] theorem State.advance_input (s : State) (n : Nat) : (s.advance n).input = s.input := rfl
@[simp] theorem State.advance_inputClosed (s : State) (n : Nat) : (s.advance n).inputClosed = s.inputClosed := rfl
@[simp] theorem State.advance_output (s : State) (n : Nat) : (s.advance n).output = s.output := rfl

@[simp] theorem State.jump_x (s : State) (t : Word) : (s.jump t).x = s.x := rfl
@[simp] theorem State.jump_pc (s : State) (t : Word) : (s.jump t).pc = t := rfl
@[simp] theorem State.jump_stack (s : State) (t : Word) : (s.jump t).stack = s.stack := rfl
@[simp] theorem State.jump_mem (s : State) (t : Word) : (s.jump t).mem = s.mem := rfl
@[simp] theorem State.jump_inbuf (s : State) (t : Word) : (s.jump t).inbuf = s.inbuf := rfl
@[simp] theorem State.jump_status (s : State) (t : Word) : (s.jump t).status = s.status := rfl
@[simp] theorem State.jump_input (s : State) (t : Word) : (s.jump t).input = s.input := rfl
@[simp] theorem State.jump_inputClosed (s : State) (t : Word) : (s.jump t).inputClosed = s.inputClosed := rfl
@[simp] theorem State.jump_output (s : State) (t : Word) : (s.jump t).output = s.output := rfl

@[simp] theorem State.stackPush_x (s : State) (v : Word) : (s.stackPush v).x = s.x := rfl
@[simp] theorem State.stackPush_pc (s : State) (v : Word) : (s.stackPush v).pc = s.pc := rfl
@[simp] theorem State.stackPush_stack (s : State) (v : Word) : (s.stackPush v).stack = s.stack ++ [v] := rfl
@[simp] theorem State.stackPush_mem (s : State) (v : Word) : (s.stackPush v).mem = s.mem := rfl
@[simp] theorem State.stackPush_inbuf (s : State) (v : Word) : (s.stackPush v).inbuf = s.inbuf := rfl
@[simp] theorem State.stackPush_status (s : State) (v : Word) : (s.stackPush v).status = s.status := rfl
@[simp] theorem State.stackPush_input (s : State) (v : Word) : (s.stackPush v).input = s.input := rfl
@[simp] theorem State.stackPush_inputClosed (s : State) (v : Word) : (s.stackPush v).inputClosed = s.inputClosed := rfl
@[simp] theorem State.stackPush_output (s : State) (v : Word) : (s.stackPush v).output = s.output := rfl

@[simp] theorem State.stackDrop_x (s : State) : (s.stackDrop).x = s.x := rfl
@[simp] theorem State.stackDrop_pc (s : State) : (s.stackDrop).pc = s.pc := rfl
@[simp] theorem State.stackDrop_stack (s : State) : (s.stackDrop).stack = s.stack.dropLast := rfl
@[simp] theorem State.stackDrop_mem (s : State) : (s.stackDrop).mem = s.mem := rfl
@[simp] theorem State.stackDrop_inbuf (s : State) : (s.stackDrop).inbuf = s.inbuf := rfl
@[simp] theorem State.stackDrop_status (s : State) : (s.stackDrop).status = s.status := rfl
@[simp] theorem State.stackDrop_input (s : State) : (s.stackDrop).input = s.input := rfl
@[simp] theorem State.stackDrop_inputClosed (s : State) : (s.stackDrop).inputClosed = s.inputClosed := rfl
@[simp] theorem State.stackDrop_output (s : State) : (s.stackDrop).output = s.output := rfl

@[simp] theorem State.writeCell_x (s : State) (addr v : Word) : (s.writeCell addr v).x = s.x := rfl
@[simp] theorem State.writeCell_pc (s : State) (addr v : Word) : (s.writeCell addr v).pc = s.pc := rfl
@[simp] theorem State.writeCell_stack (s : State) (addr v : Word) : (s.writeCell addr v).stack = s.stack := rfl
@[simp] theorem State.writeCell_mem (s : State) (addr v : Word) : (s.writeCell addr v).mem = s.mem.write addr.toNat v := rfl
@[simp] theorem State.writeCell_inbuf (s : State) (addr v : Word) : (s.writeCell addr v).inbuf = s.inbuf := rfl
@[simp] theorem State.writeCell_status (s : State) (addr v : Word) : (s.writeCell addr v).status = s.status := rfl
@[simp] theorem State.writeCell_input (s : State) (addr v : Word) : (s.writeCell addr v).input = s.input := rfl
@[simp] theorem State.writeCell_inputClosed (s : State) (addr v : Word) : (s.writeCell addr v).inputClosed = s.inputClosed := rfl
@[simp] theorem State.writeCell_output (s : State) (addr v : Word) : (s.writeCell addr v).output = s.output := rfl

@[simp] theorem State.emit_x (s : State) (ch : Byte) : (s.emit ch).x = s.x := rfl
@[simp] theorem State.emit_pc (s : State) (ch : Byte) : (s.emit ch).pc = s.pc := rfl
@[simp] theorem State.emit_stack (s : State) (ch : Byte) : (s.emit ch).stack = s.stack := rfl
@[simp] theorem State.emit_mem (s : State) (ch : Byte) : (s.emit ch).mem = s.mem := rfl
@[simp] theorem State.emit_inbuf (s : State) (ch : Byte) : (s.emit ch).inbuf = s.inbuf := rfl
@[simp] theorem State.emit_status (s : State) (ch : Byte) : (s.emit ch).status = s.status := rfl
@[simp] theorem State.emit_input (s : State) (ch : Byte) : (s.emit ch).input = s.input := rfl
@[simp] theorem State.emit_inputClosed (s : State) (ch : Byte) : (s.emit ch).inputClosed = s.inputClosed := rfl
@[simp] theorem State.emit_output (s : State) (ch : Byte) : (s.emit ch).output = s.output ++ [ch] := rfl

@[simp] theorem State.halt_x (s : State) : (s.halt).x = s.x := rfl
@[simp] theorem State.halt_pc (s : State) : (s.halt).pc = s.pc := rfl
@[simp] theorem State.halt_stack (s : State) : (s.halt).stack = s.stack := rfl
@[simp] theorem State.halt_mem (s : State) : (s.halt).mem = s.mem := rfl
@[simp] theorem State.halt_inbuf (s : State) : (s.halt).inbuf = s.inbuf := rfl
@[simp] theorem State.halt_status (s : State) : (s.halt).status = .halted := rfl
@[simp] theorem State.halt_input (s : State) : (s.halt).input = s.input := rfl
@[simp] theorem State.halt_inputClosed (s : State) : (s.halt).inputClosed = s.inputClosed := rfl
@[simp] theorem State.halt_output (s : State) : (s.halt).output = s.output := rfl

@[simp] theorem State.raise_x (s : State) (r : Reason) : (s.raise r).x = s.x := rfl
@[simp] theorem State.raise_pc (s : State) (r : Reason) : (s.raise r).pc = s.pc := rfl
@[simp] theorem State.raise_stack (s : State) (r : Reason) : (s.raise r).stack = s.stack := rfl
@[simp] theorem State.raise_mem (s : State) (r : Reason) : (s.raise r).mem = s.mem := rfl
@[simp] theorem State.raise_inbuf (s : State) (r : Reason) : (s.raise r).inbuf = s.inbuf := rfl
@[simp] theorem State.raise_status (s : State) (r : Reason) : (s.raise r).status = .aborted r s.pc := rfl
@[simp] theorem State.raise_input (s : State) (r : Reason) : (s.raise r).input = s.input := rfl
@[simp] theorem State.raise_inputClosed (s : State) (r : Reason) : (s.raise r).inputClosed = s.inputClosed := rfl
@[simp] theorem State.raise_output (s : State) (r : Reason) : (s.raise r).output = s.output := rfl

/-- A register read after a register write. -/
theorem State.reg_setReg (s : State) (i j : Fin 8) (v : Word) :
    (s.setReg i v).reg j = if j = i then v else s.reg j := by
  simp only [State.reg, State.setReg, Vector.get_eq_getElem, Vector.getElem_set, Fin.ext_iff, eq_comm]

@[simp] theorem State.reg_advance (s : State) (n : Nat) (j : Fin 8) : (s.advance n).reg j = s.reg j := rfl

@[simp] theorem State.reg_raise (s : State) (r : Reason) (j : Fin 8) : (s.raise r).reg j = s.reg j := rfl

end Sys2Proof.Machine
end

