-- ==== Sys2Proof/Laws/Operands.lean ====
section
/-! SUPPORT. What the resolver, the address resolver and the destination check can answer, in the spec's terms. -/

namespace Sys2Proof.Machine

theorem registerIndex_of_toNat {raw : Word} {i : Fin 8} (h : raw.toNat = 32768 + i.val) : registerIndex raw = i := by
  ext; simp only [registerIndex]; omega

theorem toNat_registerIndex {raw : Word} (h : 32768 ≤ raw.toNat) (h' : raw.toNat < 32776) :
    raw.toNat = 32768 + (registerIndex raw).val := by
  simp only [registerIndex]; omega

theorem resolve_of_operandIs {s : State} {raw v : Word} (h : OperandIs s raw v) : resolve s raw = .ok v := by
  unfold resolve Config.regBase Config.firstInvalid
  rcases h with ⟨h, rfl⟩ | ⟨i, h, rfl⟩
  · rw [if_pos h]
  · rw [if_neg (by omega), if_pos (by omega), registerIndex_of_toNat h]; rfl

theorem resolve_of_invalid {s : State} {raw : Word} (h : InvalidRaw raw) : resolve s raw = .error .invalidOperand := by
  unfold resolve Config.regBase Config.firstInvalid
  rw [if_neg (by omega), if_neg (by omega)]

/-- R75, everything the resolver can answer. -/
theorem resolve_cases (s : State) (raw : Word) :
    (∃ v, OperandIs s raw v ∧ resolve s raw = .ok v) ∨ (InvalidRaw raw ∧ resolve s raw = .error .invalidOperand) := by
  by_cases h : 32776 ≤ raw.toNat
  · exact .inr ⟨h, resolve_of_invalid h⟩
  · have hv : ∃ v, OperandIs s raw v := by
      by_cases hl : raw.toNat < 32768
      · exact ⟨raw, .inl ⟨hl, rfl⟩⟩
      · exact ⟨_, .inr ⟨registerIndex raw, toNat_registerIndex (by omega) (by omega), rfl⟩⟩
    obtain ⟨v, hv⟩ := hv
    exact .inl ⟨v, hv, resolve_of_operandIs hv⟩

theorem resolveAddress_of_addressIs {s : State} {raw t : Word} (h : AddressIs s raw t) :
    resolveAddress s raw = .ok t := by
  unfold resolveAddress Config.addressLimit
  rw [resolve_of_operandIs h.1]
  exact if_pos h.2

theorem resolveAddress_of_invalid {s : State} {raw : Word} (h : InvalidRaw raw) :
    resolveAddress s raw = .error .invalidOperand := by
  unfold resolveAddress
  rw [resolve_of_invalid h]

theorem resolveAddress_of_noCell {s : State} {raw : Word} (h : NoCellInRegister s raw) :
    resolveAddress s raw = .error .invalidAddress := by
  obtain ⟨i, h, hv⟩ := h
  unfold resolveAddress Config.addressLimit
  rw [resolve_of_operandIs (Or.inr ⟨i, h, rfl⟩)]
  exact if_neg (by omega)

/-- R76, everything the address resolver can answer. -/
theorem resolveAddress_cases (s : State) (raw : Word) :
    (∃ t, AddressIs s raw t ∧ resolveAddress s raw = .ok t) ∨
    (InvalidRaw raw ∧ resolveAddress s raw = .error .invalidOperand) ∨
    (NoCellInRegister s raw ∧ resolveAddress s raw = .error .invalidAddress) := by
  rcases resolve_cases s raw with ⟨v, hv, -⟩ | ⟨h, -⟩
  · by_cases hlt : v.toNat < 32768
    · exact .inl ⟨v, ⟨hv, hlt⟩, resolveAddress_of_addressIs ⟨hv, hlt⟩⟩
    · rcases hv with ⟨h, rfl⟩ | ⟨i, h, rfl⟩
      · exact absurd h hlt
      · exact .inr (.inr ⟨⟨i, h, by omega⟩, resolveAddress_of_noCell ⟨i, h, by omega⟩⟩)
  · exact .inr (.inl ⟨h, resolveAddress_of_invalid h⟩)

theorem dest_of_destIs {raw : Word} {d : Fin 8} (h : DestIs raw d) : dest raw = .ok d := by
  unfold dest Config.regBase Config.firstInvalid
  rw [if_pos ⟨by omega, by omega⟩, registerIndex_of_toNat h]

theorem dest_of_notRegister {raw : Word} (h : NotRegister raw) : dest raw = .error .invalidRegisterTarget := by
  unfold dest Config.regBase Config.firstInvalid
  rw [if_neg (by omega)]

/-- R77, everything the destination check can answer. -/
theorem dest_cases (raw : Word) :
    (∃ d, DestIs raw d ∧ dest raw = .ok d) ∨ (NotRegister raw ∧ dest raw = .error .invalidRegisterTarget) := by
  by_cases h : NotRegister raw
  · exact .inr ⟨h, dest_of_notRegister h⟩
  · have hd : DestIs raw (registerIndex raw) := toNat_registerIndex (by omega) (by omega)
    exact .inl ⟨_, hd, dest_of_destIs hd⟩

theorem not_notRegister {raw : Word} {d : Fin 8} (h : DestIs raw d) : ¬ NotRegister raw := by
  unfold NotRegister; omega

theorem destIs_of_not_notRegister {raw : Word} (h : ¬ NotRegister raw) : ∃ d, DestIs raw d :=
  ⟨registerIndex raw, toNat_registerIndex (by omega) (by omega)⟩

end Sys2Proof.Machine
end

