-- ==== Sys2Proof/Laws/Exec.lean ====
section
/-! SUPPORT. Everything an instruction can do, said once: the result of each meaning when its operands are good, the
abort when they are not, and the inversion `exec_cases` that frames and invariants are read off. -/

namespace Sys2Proof.Machine

/-! The meanings on good operands. -/

theorem destSrcSrc_ok {f : Word → Word → Word} {a b c : Word} {s : State} {d : Fin 8} {vb vc : Word}
    (ha : DestIs a d) (hb : OperandIs s b vb) (hc : OperandIs s c vc) :
    destSrcSrc f a b c s = .next ((s.advance 4).setReg d (f vb vc)) := by
  simp only [destSrcSrc, dest_of_destIs ha, resolve_of_operandIs hb, resolve_of_operandIs hc]; rfl

/-- R204: how an instruction of the shape `dest a, src b, src c` aborts. -/
theorem destSrcSrc_aborts {f : Word → Word → Word} {a b c : Word} {s : State} :
    (NotRegister a → destSrcSrc f a b c s = .next (s.raise .invalidRegisterTarget)) ∧
    (¬ NotRegister a → InvalidRaw b ∨ InvalidRaw c → destSrcSrc f a b c s = .next (s.raise .invalidOperand)) := by
  constructor
  · intro h; simp only [destSrcSrc, dest_of_notRegister h]; rfl
  · intro h hbc
    obtain ⟨d, hd⟩ := destIs_of_not_notRegister h
    rcases resolve_cases s b with ⟨vb, -, hb⟩ | ⟨-, hb⟩
    · rcases hbc with hbc | hbc
      · rw [resolve_of_invalid hbc] at hb; cases hb
      · simp only [destSrcSrc, dest_of_destIs hd, hb, resolve_of_invalid hbc]; rfl
    · simp only [destSrcSrc, dest_of_destIs hd, hb]; rfl

/-- Everything an instruction of the shape `dest a, src b, src c` can do. -/
theorem destSrcSrc_cases (f : Word → Word → Word) (a b c : Word) (s : State) :
    (∃ d vb vc, DestIs a d ∧ OperandIs s b vb ∧ OperandIs s c vc ∧
      destSrcSrc f a b c s = .next ((s.advance 4).setReg d (f vb vc))) ∨
    ∃ r : Reason, r.ofInstruction = true ∧ destSrcSrc f a b c s = .next (s.raise r) := by
  rcases dest_cases a with ⟨d, hd, -⟩ | ⟨h, -⟩
  · rcases resolve_cases s b with ⟨vb, hb, -⟩ | ⟨h, -⟩
    · rcases resolve_cases s c with ⟨vc, hc, -⟩ | ⟨h, -⟩
      · exact .inl ⟨d, vb, vc, hd, hb, hc, destSrcSrc_ok hd hb hc⟩
      · exact .inr ⟨_, rfl, destSrcSrc_aborts.2 (not_notRegister hd) (.inr h)⟩
    · exact .inr ⟨_, rfl, destSrcSrc_aborts.2 (not_notRegister hd) (.inl h)⟩
  · exact .inr ⟨_, rfl, destSrcSrc_aborts.1 h⟩

/-- R175, everything the input adapter can answer. -/
theorem inChar_cases (s : State) :
    (∃ ch cs, s.inbuf = ch :: cs ∧ inChar s = .char ch { s with inbuf := cs }) ∨
    (∃ ch cs lines, s.inbuf = [] ∧ s.input = (ch :: cs) :: lines ∧
      inChar s = .char ch { s with inbuf := cs, input := lines }) ∨
    (∃ lines, s.inbuf = [] ∧ s.input = [] :: lines ∧ inChar s = .fatal .emptyInputLine { s with input := lines }) ∨
    (s.inbuf = [] ∧ s.input = [] ∧ s.inputClosed = true ∧ inChar s = .fatal .inputExhausted s) ∨
    (s.inbuf = [] ∧ s.input = [] ∧ s.inputClosed = false ∧ inChar s = .wait) := by
  unfold inChar
  cases hb : s.inbuf with
  | cons ch cs => exact .inl ⟨ch, cs, rfl, rfl⟩
  | nil =>
    cases hi : s.input with
    | nil => cases hc : s.inputClosed <;> simp
    | cons line lines => cases line <;> simp

/-- Everything a next state of `exec i s` can be. -/
inductive ExecCase (i : Instr) (s : State) : State → Prop where
  | abort (r : Reason) : r.ofInstruction = true → ExecCase i s (s.raise r)
  | emptyLine (a : Word) (lines : List (List Byte)) : i = .input a → s.inbuf = [] → s.input = [] :: lines →
      ExecCase i s (State.raise { s with input := lines } .emptyInputLine)
  | wait (a : Word) : i = .input a → s.inbuf = [] → s.input = [] → s.inputClosed = false → ExecCase i s s
  | halt : (i = .halt ∨ ∃ op : Word, encode i = [op] ∧ (i.wellFormed = true → 22 ≤ op.toNat)) →
      ExecCase i s (s.advance 1).halt
  | noop : i = .noop → ExecCase i s (s.advance 1)
  /-- an instruction of shape `dest a` with its result; the last premise bounds the result by the operands -/
  | write (a : Word) (d : Fin 8) (v : Word) (n : Nat) : destOperand? i = some a → DestIs a d →
      (∀ a, i ≠ .pop a) → (∀ a, i ≠ .input a) → (encode i).length = n →
      ((∀ j : Fin 8, (s.x.get j).toNat < 32768) →
        (∀ a b addr : Word, i = .rmem a b → AddressIs s b addr → (s.mem.read addr.toNat).toNat < 32768) →
        v.toNat < 32768) →
      ExecCase i s ((s.advance n).setReg d v)
  | push (a v : Word) : i = .push a → ExecCase i s ((s.advance 2).stackPush v)
  | pop (a : Word) (d : Fin 8) (below : List Word) (v : Word) : i = .pop a → DestIs a d → s.stack = below ++ [v] →
      ExecCase i s (((s.advance 2).stackDrop).setReg d v)
  | jump (t : Word) : t.toNat < 32768 → ((∃ a, i = .jmp a) ∨ ∃ a b, i = .jt a b ∨ i = .jf a b) → ExecCase i s (s.jump t)
  | notTaken (a b : Word) : (i = .jt a b ∨ i = .jf a b) → ExecCase i s (s.advance 3)
  | call (a t : Word) : i = .call a → t.toNat < 32768 → ExecCase i s (((s.advance 2).stackPush (s.pc + 2)).jump t)
  | ret (below : List Word) (w t : Word) : i = .ret → s.stack = below ++ [w] → t.toNat < 32768 →
      ExecCase i s (s.stackDrop.jump t)
  | store (a b addr v : Word) : i = .wmem a b → AddressIs s a addr → OperandIs s b v →
      ExecCase i s ((s.advance 3).writeCell addr v)
  | emit (a : Word) (ch : Byte) : i = .out a → ExecCase i s ((s.advance 2).emit ch)
  | buffered (a : Word) (d : Fin 8) (ch : Byte) (cs : List Byte) : i = .input a → DestIs a d → s.inbuf = ch :: cs →
      ExecCase i s ((State.advance { s with inbuf := cs } 2).setReg d (ch.setWidth 16))
  | newLine (a : Word) (d : Fin 8) (ch : Byte) (cs : List Byte) (lines : List (List Byte)) : i = .input a → DestIs a d →
      s.inbuf = [] → s.input = (ch :: cs) :: lines →
      ExecCase i s ((State.advance { s with inbuf := cs, input := lines } 2).setReg d (ch.setWidth 16))

/-- A next state given by an equation of `exec` is one of the cases when the state of the equation is. -/
theorem ExecCase.of_eq {i : Instr} {s t u : State} (hu : ExecCase i s u) (h : exec i s = .next t)
    (he : exec i s = .next u) : ExecCase i s t := by
  rw [h] at he; cases he; exact hu

theorem operandIs_small {s : State} {raw v : Word} (h : OperandIs s raw v)
    (hs : ∀ j : Fin 8, (s.x.get j).toNat < 32768) : v.toNat < 32768 := by
  rcases h with ⟨h, rfl⟩ | ⟨i, -, rfl⟩
  · exact h
  · exact hs i

theorem truthWord_small (p : Bool) : (truthWord p).toNat < 32768 := by cases p <;> decide

theorem andResult_small {vb vc : Word} (h : vb.toNat < 32768) : (andResult vb vc).toNat < 32768 := by
  have := Nat.and_le_left (n := vb.toNat) (m := vc.toNat)
  simp only [andResult, BitVec.toNat_and]; omega

theorem orResult_small {vb vc : Word} (h : vb.toNat < 32768) (h' : vc.toNat < 32768) :
    (orResult vb vc).toNat < 32768 := by
  simp only [orResult, BitVec.toNat_or]
  exact Nat.or_lt_two_pow (n := 15) h h'

theorem notResult_eq (v : Word) : notResult v = BitVec.ofNat 16 (32767 - v.toNat % 32768) := by
  apply BitVec.eq_of_toNat_eq
  have h : (Config.complementMask).toNat = 2 ^ 15 - 1 := by decide
  have := v.isLt
  simp only [notResult, BitVec.toNat_and, BitVec.toNat_not, h, Nat.and_two_pow_sub_one_eq_mod, BitVec.toNat_ofNat]
  omega

theorem ofNat_mod_modulus_small (n : Nat) : (BitVec.ofNat 16 (n % Config.modulus)).toNat < 32768 := by
  simp only [Config.modulus, BitVec.toNat_ofNat]; omega

theorem modResult_small {vb vc : Word} (h : vb.toNat < 32768) : (modResult vb vc).toNat < 32768 := by
  have := Nat.mod_le vb.toNat vc.toNat
  simp only [modResult, BitVec.toNat_ofNat]; omega

/-- The cases of an instruction that is `destSrcSrc` of a function keeping small operands small. -/
theorem ExecCase.of_destSrcSrc {i : Instr} {a b c : Word} {s t : State} (f : Word → Word → Word)
    (hi : ∀ s, exec i s = destSrcSrc f a b c s) (hd : destOperand? i = some a) (hp : ∀ a, i ≠ .pop a)
    (hin : ∀ a, i ≠ .input a) (hl : (encode i).length = 4)
    (hf : ∀ vb vc : Word, vb.toNat < 32768 → vc.toNat < 32768 → (f vb vc).toNat < 32768)
    (h : exec i s = .next t) : ExecCase i s t := by
  rcases destSrcSrc_cases f a b c s with ⟨d, vb, vc, ha, hb, hc, e⟩ | ⟨r, hr, e⟩
  · refine (ExecCase.write a d (f vb vc) 4 hd ha hp hin hl fun hs _ => ?_).of_eq h (by rw [hi, e])
    exact hf _ _ (operandIs_small hb hs) (operandIs_small hc hs)
  · exact (ExecCase.abort r hr).of_eq h (by rw [hi, e])

theorem execSet_cases {a b : Word} {s t : State} (h : exec (.set a b) s = .next t) : ExecCase (.set a b) s t := by
  rcases dest_cases a with ⟨d, hd, e⟩ | ⟨-, e⟩
  · rcases resolve_cases s b with ⟨v, hv, e'⟩ | ⟨-, e'⟩
    · refine (ExecCase.write a d v 3 rfl hd (by simp) (by simp) rfl fun hs _ => operandIs_small hv hs).of_eq h ?_
      simp only [exec, execSet, e, e']; rfl
    · refine (ExecCase.abort .invalidOperand rfl).of_eq h ?_
      simp only [exec, execSet, e, e']; rfl
  · refine (ExecCase.abort .invalidRegisterTarget rfl).of_eq h ?_
    simp only [exec, execSet, e]; rfl

theorem execPush_cases {a : Word} {s t : State} (h : exec (.push a) s = .next t) : ExecCase (.push a) s t := by
  rcases resolve_cases s a with ⟨v, -, e⟩ | ⟨-, e⟩
  · refine (ExecCase.push a v rfl).of_eq h ?_
    simp only [exec, execPush, pushWithin, e]; rfl
  · refine (ExecCase.abort .invalidOperand rfl).of_eq h ?_
    simp only [exec, execPush, pushWithin, e]; rfl

/-- R15: a stack is empty or has a top word. -/
theorem stack_cases (s : State) : s.stack = [] ∨ ∃ below w, s.stack = below ++ [w] := by
  rcases List.eq_nil_or_concat s.stack with h | ⟨below, w, h⟩
  · exact .inl h
  · exact .inr ⟨below, w, by simpa using h⟩

theorem stackTop?_of_append {s : State} {below : List Word} {w : Word} (h : s.stack = below ++ [w]) :
    s.stackTop? = some w := by simp [State.stackTop?, h]

theorem stackTop?_of_empty {s : State} (h : s.stack = []) : s.stackTop? = none := by simp [State.stackTop?, h]

theorem execPop_cases {a : Word} {s t : State} (h : exec (.pop a) s = .next t) : ExecCase (.pop a) s t := by
  rcases dest_cases a with ⟨d, hd, e⟩ | ⟨-, e⟩
  · rcases stack_cases s with hs | ⟨below, w, hs⟩
    · refine (ExecCase.abort .stackUnderflow rfl).of_eq h ?_
      simp only [exec, execPop, e, stackTop?_of_empty hs]; rfl
    · refine (ExecCase.pop a d below w rfl hd hs).of_eq h ?_
      simp only [exec, execPop, e, stackTop?_of_append hs]; rfl
  · refine (ExecCase.abort .invalidRegisterTarget rfl).of_eq h ?_
    simp only [exec, execPop, e]; rfl

/-- The abort of an address operand, either way. -/
theorem resolveAddress_bad {s : State} {raw : Word} :
    (∃ t, AddressIs s raw t ∧ resolveAddress s raw = .ok t) ∨
    ∃ r : Reason, r.ofInstruction = true ∧ resolveAddress s raw = .error r := by
  rcases resolveAddress_cases s raw with h | ⟨-, h⟩ | ⟨-, h⟩
  · exact .inl h
  · exact .inr ⟨_, rfl, h⟩
  · exact .inr ⟨_, rfl, h⟩

theorem execJmp_cases {a : Word} {s t : State} (h : exec (.jmp a) s = .next t) : ExecCase (.jmp a) s t := by
  rcases resolveAddress_bad (s := s) (raw := a) with ⟨u, hu, e⟩ | ⟨r, hr, e⟩
  · refine (ExecCase.jump u hu.2 (.inl ⟨a, rfl⟩)).of_eq h ?_
    simp only [exec, execJmp, e]; rfl
  · refine (ExecCase.abort r hr).of_eq h ?_
    simp only [exec, execJmp, e]; rfl

/-- The cases of an instruction that is `jumpWhen` of a test. -/
theorem ExecCase.of_jumpWhen {i : Instr} {a b : Word} {s t : State} (taken : Word → Bool)
    (hi : ∀ s, exec i s = jumpWhen taken a b s) (hj : i = .jt a b ∨ i = .jf a b) (h : exec i s = .next t) :
    ExecCase i s t := by
  rcases resolve_cases s a with ⟨va, -, e⟩ | ⟨-, e⟩
  · cases ht : taken va with
    | false =>
      refine (ExecCase.notTaken a b hj).of_eq h ?_
      simp only [hi, jumpWhen, e]
      show complete s (if taken va = true then _ else _) = _
      rw [ht]; rfl
    | true =>
      rcases resolveAddress_bad (s := s) (raw := b) with ⟨u, hu, e'⟩ | ⟨r, hr, e'⟩
      · refine (ExecCase.jump u hu.2 (.inr ⟨a, b, hj⟩)).of_eq h ?_
        simp only [hi, jumpWhen, e, e']
        show complete s (if taken va = true then _ else _) = _
        rw [ht]; rfl
      · refine (ExecCase.abort r hr).of_eq h ?_
        simp only [hi, jumpWhen, e, e']
        show complete s (if taken va = true then _ else _) = _
        rw [ht]; rfl
  · refine (ExecCase.abort .invalidOperand rfl).of_eq h ?_
    simp only [hi, jumpWhen, e]; rfl

theorem execCall_cases {a : Word} {s t : State} (h : exec (.call a) s = .next t) : ExecCase (.call a) s t := by
  rcases resolveAddress_bad (s := s) (raw := a) with ⟨u, hu, e⟩ | ⟨r, hr, e⟩
  · refine (ExecCase.call a u rfl hu.2).of_eq h ?_
    simp only [exec, execCall, callWithin, e]; rfl
  · refine (ExecCase.abort r hr).of_eq h ?_
    simp only [exec, execCall, callWithin, e]; rfl

theorem execRet_cases {s t : State} (h : exec .ret s = .next t) : ExecCase .ret s t := by
  rcases stack_cases s with hs | ⟨below, w, hs⟩
  · refine (ExecCase.abort .stackUnderflow rfl).of_eq h ?_
    simp only [exec, execRet, stackTop?_of_empty hs]; rfl
  · rcases resolveAddress_bad (s := s) (raw := w) with ⟨u, hu, e⟩ | ⟨r, hr, e⟩
    · refine (ExecCase.ret below w u rfl hs hu.2).of_eq h ?_
      simp only [exec, execRet, stackTop?_of_append hs, e]; rfl
    · refine (ExecCase.abort r hr).of_eq h ?_
      simp only [exec, execRet, stackTop?_of_append hs, e]; rfl

theorem execMod_cases {a b c : Word} {s t : State} (h : exec (.mod a b c) s = .next t) : ExecCase (.mod a b c) s t := by
  rcases dest_cases a with ⟨d, hd, e⟩ | ⟨-, e⟩
  · rcases resolve_cases s b with ⟨vb, hb, eb⟩ | ⟨-, eb⟩
    · rcases resolve_cases s c with ⟨vc, -, ec⟩ | ⟨-, ec⟩
      · cases hz : nonZero vc with
        | false =>
          refine (ExecCase.abort .arithmeticError rfl).of_eq h ?_
          simp only [exec, execMod, e, eb, ec]
          show complete s (check (!nonZero vc) _ >>= _) = _
          rw [hz]; rfl
        | true =>
          refine (ExecCase.write a d (modResult vb vc) 4 rfl hd (by simp) (by simp) rfl
            fun hs _ => modResult_small (operandIs_small hb hs)).of_eq h ?_
          simp only [exec, execMod, e, eb, ec]
          show complete s (check (!nonZero vc) _ >>= _) = _
          rw [hz]; rfl
      · refine (ExecCase.abort .invalidOperand rfl).of_eq h ?_
        simp only [exec, execMod, e, eb, ec]; rfl
    · refine (ExecCase.abort .invalidOperand rfl).of_eq h ?_
      simp only [exec, execMod, e, eb]; rfl
  · refine (ExecCase.abort .invalidRegisterTarget rfl).of_eq h ?_
    simp only [exec, execMod, e]; rfl

theorem execNot_cases {a b : Word} {s t : State} (h : exec (.not a b) s = .next t) : ExecCase (.not a b) s t := by
  rcases dest_cases a with ⟨d, hd, e⟩ | ⟨-, e⟩
  · rcases resolve_cases s b with ⟨v, -, e'⟩ | ⟨-, e'⟩
    · refine (ExecCase.write a d (notResult v) 3 rfl hd (by simp) (by simp) rfl fun _ _ => ?_).of_eq h ?_
      · rw [notResult_eq, BitVec.toNat_ofNat]; omega
      · simp only [exec, execNot, e, e']; rfl
    · refine (ExecCase.abort .invalidOperand rfl).of_eq h ?_
      simp only [exec, execNot, e, e']; rfl
  · refine (ExecCase.abort .invalidRegisterTarget rfl).of_eq h ?_
    simp only [exec, execNot, e]; rfl

theorem execRmem_cases {a b : Word} {s t : State} (h : exec (.rmem a b) s = .next t) : ExecCase (.rmem a b) s t := by
  rcases dest_cases a with ⟨d, hd, e⟩ | ⟨-, e⟩
  · rcases resolveAddress_bad (s := s) (raw := b) with ⟨u, hu, e'⟩ | ⟨r, hr, e'⟩
    · refine (ExecCase.write a d (s.readCell u) 3 rfl hd (by simp) (by simp) rfl fun _ hm => hm a b u rfl hu).of_eq h ?_
      simp only [exec, execRmem, e, e']; rfl
    · refine (ExecCase.abort r hr).of_eq h ?_
      simp only [exec, execRmem, e, e']; rfl
  · refine (ExecCase.abort .invalidRegisterTarget rfl).of_eq h ?_
    simp only [exec, execRmem, e]; rfl

theorem execWmem_cases {a b : Word} {s t : State} (h : exec (.wmem a b) s = .next t) : ExecCase (.wmem a b) s t := by
  rcases resolveAddress_bad (s := s) (raw := a) with ⟨u, hu, e⟩ | ⟨r, hr, e⟩
  · rcases resolve_cases s b with ⟨v, hv, e'⟩ | ⟨-, e'⟩
    · refine (ExecCase.store a b u v rfl hu hv).of_eq h ?_
      simp only [exec, execWmem, e, e']; rfl
    · refine (ExecCase.abort .invalidOperand rfl).of_eq h ?_
      simp only [exec, execWmem, e, e']; rfl
  · refine (ExecCase.abort r hr).of_eq h ?_
    simp only [exec, execWmem, e]; rfl

theorem execOut_cases {a : Word} {s t : State} (h : exec (.out a) s = .next t) : ExecCase (.out a) s t := by
  rcases resolve_cases s a with ⟨v, -, e⟩ | ⟨-, e⟩
  · cases hb : decide (Config.outLimit ≤ v.toNat) with
    | true =>
      refine (ExecCase.abort .invalidOutputValue rfl).of_eq h ?_
      simp only [exec, execOut, e]
      show complete s (check (decide (Config.outLimit ≤ v.toNat)) _ >>= _) = _
      rw [hb]; rfl
    | false =>
      refine (ExecCase.emit a (v.setWidth 8) rfl).of_eq h ?_
      simp only [exec, execOut, e]
      show complete s (check (decide (Config.outLimit ≤ v.toNat)) _ >>= _) = _
      rw [hb]; rfl
  · refine (ExecCase.abort .invalidOperand rfl).of_eq h ?_
    simp only [exec, execOut, e]; rfl

theorem execIn_cases {a : Word} {s t : State} (h : exec (.input a) s = .next t) : ExecCase (.input a) s t := by
  rcases dest_cases a with ⟨d, hd, e⟩ | ⟨-, e⟩
  · rcases inChar_cases s with ⟨ch, cs, hb, ei⟩ | ⟨ch, cs, lines, hb, hl, ei⟩ | ⟨lines, hb, hl, ei⟩ |
      ⟨-, -, -, ei⟩ | ⟨hb, hl, hc, ei⟩
    · exact (ExecCase.buffered a d ch cs rfl hd hb).of_eq h (by simp only [exec, execIn, e, ei])
    · exact (ExecCase.newLine a d ch cs lines rfl hd hb hl).of_eq h (by simp only [exec, execIn, e, ei])
    · exact (ExecCase.emptyLine a lines rfl hb hl).of_eq h (by simp only [exec, execIn, e, ei])
    · exact (ExecCase.abort .inputExhausted rfl).of_eq h (by simp only [exec, execIn, e, ei])
    · exact (ExecCase.wait a rfl hb hl hc).of_eq h (by simp only [exec, execIn, e, ei]; rfl)
  · exact (ExecCase.abort .invalidRegisterTarget rfl).of_eq h (by simp only [exec, execIn, e])

/-- R92: an unassigned row, from the lower end of its range. -/
theorem ExecCase.of_row {i : Instr} {op : Word} {lo hi : Nat} {s t : State} (he : encode i = [op])
    (hw : i.wellFormed = opcodeWithin lo hi op) (hlo : 22 ≤ lo)
    (hx : exec i s = .next (s.advance 1).halt) (h : exec i s = .next t) : ExecCase i s t := by
  refine (ExecCase.halt (.inr ⟨op, he, fun hwf => ?_⟩)).of_eq h hx
  rw [hw] at hwf
  simp only [opcodeWithin, Bool.and_eq_true, decide_eq_true_eq] at hwf
  omega

/-- Everything an instruction can do. -/
theorem exec_cases {i : Instr} {s t : State} (h : exec i s = .next t) : ExecCase i s t := by
  cases i with
  | halt => exact (ExecCase.halt (.inl rfl)).of_eq h rfl
  | set a b => exact execSet_cases h
  | push a => exact execPush_cases h
  | pop a => exact execPop_cases h
  | eq a b c =>
    exact ExecCase.of_destSrcSrc eqResult (fun _ => rfl) rfl (by simp) (by simp) rfl (fun _ _ _ _ => truthWord_small _) h
  | gt a b c =>
    exact ExecCase.of_destSrcSrc gtResult (fun _ => rfl) rfl (by simp) (by simp) rfl (fun _ _ _ _ => truthWord_small _) h
  | jmp a => exact execJmp_cases h
  | jt a b => exact ExecCase.of_jumpWhen nonZero (fun _ => rfl) (.inl rfl) h
  | jf a b => exact ExecCase.of_jumpWhen (fun v => !nonZero v) (fun _ => rfl) (.inr rfl) h
  | add a b c =>
    exact ExecCase.of_destSrcSrc addResult (fun _ => rfl) rfl (by simp) (by simp) rfl
      (fun _ _ _ _ => ofNat_mod_modulus_small _) h
  | mult a b c =>
    exact ExecCase.of_destSrcSrc multResult (fun _ => rfl) rfl (by simp) (by simp) rfl
      (fun _ _ _ _ => ofNat_mod_modulus_small _) h
  | mod a b c => exact execMod_cases h
  | and a b c =>
    exact ExecCase.of_destSrcSrc andResult (fun _ => rfl) rfl (by simp) (by simp) rfl (fun _ _ hb _ => andResult_small hb) h
  | or a b c =>
    exact ExecCase.of_destSrcSrc orResult (fun _ => rfl) rfl (by simp) (by simp) rfl (fun _ _ hb hc => orResult_small hb hc) h
  | not a b => exact execNot_cases h
  | rmem a b => exact execRmem_cases h
  | wmem a b => exact execWmem_cases h
  | call a => exact execCall_cases h
  | ret => exact execRet_cases h
  | out a => exact execOut_cases h
  | input a => exact execIn_cases h
  | noop => exact (ExecCase.noop rfl).of_eq h rfl
  | unassigned22To23 op => exact ExecCase.of_row rfl rfl (by omega) rfl h
  | unassigned24To31 op => exact ExecCase.of_row rfl rfl (by omega) rfl h
  | unassigned32To63 op => exact ExecCase.of_row rfl rfl (by omega) rfl h
  | unassigned64To127 op => exact ExecCase.of_row rfl rfl (by omega) rfl h
  | unassigned128To255 op => exact ExecCase.of_row rfl rfl (by omega) rfl h
  | unassigned256To511 op => exact ExecCase.of_row rfl rfl (by omega) rfl h
  | unassigned512To1023 op => exact ExecCase.of_row rfl rfl (by omega) rfl h
  | unassigned1024To2047 op => exact ExecCase.of_row rfl rfl (by omega) rfl h
  | unassigned2048To4095 op => exact ExecCase.of_row rfl rfl (by omega) rfl h
  | unassigned4096To8191 op => exact ExecCase.of_row rfl rfl (by omega) rfl h
  | unassigned8192To16383 op => exact ExecCase.of_row rfl rfl (by omega) rfl h
  | unassigned16384To32767 op => exact ExecCase.of_row rfl rfl (by omega) rfl h
  | unassigned32768To65535 op => exact ExecCase.of_row rfl rfl (by omega) rfl h

end Sys2Proof.Machine
end

