-- ==== Sys2Proof/Laws/Memory.lean ====
section
/-! SUPPORT. The Program Store: reading after a write, and that every memory operation keeps the canonical form. -/

namespace Sys2Proof.Machine

theorem Memory.read_filter_ne (m : Memory) (addr n : Nat) :
    Memory.read (m.filter (fun c => decide (c.1 ≠ addr))) n = if n = addr then Config.padWord else m.read n := by
  induction m with
  | nil => simp [Memory.read]
  | cons c rest ih =>
    obtain ⟨k, w⟩ := c
    by_cases hk : k = addr
    · by_cases hn : n = addr <;> simp_all [Memory.read]
      intro h; exact absurd h.symm hn
    · by_cases hn : n = addr <;> simp_all [Memory.read]

theorem Memory.read_insertCell (m : Memory) (addr n : Nat) (v : Word) (h : ∀ c ∈ m, c.1 ≠ addr) :
    (Memory.insertCell m addr v).read n = if n = addr then v else m.read n := by
  induction m with
  | nil => simp [Memory.insertCell, Memory.read, eq_comm]
  | cons c rest ih =>
    obtain ⟨k, w⟩ := c
    have hk : k ≠ addr := h (k, w) (by simp)
    have ih' := ih (fun c hc => h c (by simp [hc]))
    simp only [Memory.insertCell]
    split
    · simp only [Memory.read, eq_comm]
    · simp only [Memory.read, ih']
      by_cases hn : n = addr
      · subst hn; simp [hk]
      · simp [hn]

/-- R32, R33: what any cell reads after a write. -/
theorem Memory.read_write (m : Memory) (addr n : Nat) (v : Word) :
    (m.write addr v).read n = if n = addr then v else m.read n := by
  have hmem : ∀ c ∈ m.filter (fun c => decide (c.1 ≠ addr)), c.1 ≠ addr := by simp
  unfold Memory.write
  split
  · rename_i hv; rw [Memory.read_filter_ne, hv]
  · rw [Memory.read_insertCell _ _ _ _ hmem, Memory.read_filter_ne]
    by_cases hn : n = addr <;> simp [hn]

/-- The canonical form, said of the entries. -/
theorem Memory.wf_cons (k : Nat) (w : Word) (rest : Memory) :
    Memory.wf ((k, w) :: rest) = true ↔
      k < 32768 ∧ w ≠ Config.padWord ∧ (∀ c ∈ rest, k < c.1) ∧ Memory.wf rest = true := by
  simp only [Memory.wf, Bool.and_eq_true, decide_eq_true_eq, List.all_eq_true, and_assoc]
  exact Iff.rfl

theorem Memory.wf_filter (m : Memory) (p : Nat × Word → Bool) (h : m.wf = true) :
    Memory.wf (m.filter p) = true := by
  induction m with
  | nil => rfl
  | cons c rest ih =>
    obtain ⟨k, w⟩ := c
    rw [Memory.wf_cons] at h
    rw [List.filter_cons]
    split
    · rw [Memory.wf_cons]
      exact ⟨h.1, h.2.1, fun c hc => h.2.2.1 c (List.mem_of_mem_filter hc), ih h.2.2.2⟩
    · exact ih h.2.2.2

theorem Memory.mem_insertCell (m : Memory) (addr : Nat) (v : Word) (c : Nat × Word) :
    c ∈ Memory.insertCell m addr v ↔ c = (addr, v) ∨ c ∈ m := by
  induction m with
  | nil => simp [Memory.insertCell]
  | cons d rest ih =>
    obtain ⟨k, w⟩ := d
    simp only [Memory.insertCell]
    split
    · simp
    · simp only [List.mem_cons, ih]; tauto

theorem Memory.wf_insertCell (m : Memory) (addr : Nat) (v : Word) (h : m.wf = true) (ha : addr < 32768)
    (hv : v ≠ Config.padWord) (hne : ∀ c ∈ m, c.1 ≠ addr) : (Memory.insertCell m addr v).wf = true := by
  induction m with
  | nil => simp [Memory.insertCell, Memory.wf, Config.memWords, ha, hv]
  | cons c rest ih =>
    obtain ⟨k, w⟩ := c
    have hk : k ≠ addr := hne (k, w) (by simp)
    have h' := (Memory.wf_cons k w rest).1 h
    simp only [Memory.insertCell]
    split
    · rename_i hlt
      rw [Memory.wf_cons]
      refine ⟨ha, hv, ?_, h⟩
      intro c hc
      rcases List.mem_cons.1 hc with rfl | hc
      · exact hlt
      · exact hlt.trans (h'.2.2.1 c hc)
    · rename_i hlt
      rw [Memory.wf_cons]
      refine ⟨h'.1, h'.2.1, ?_, ih h'.2.2.2 (fun c hc => hne c (by simp [hc]))⟩
      intro c hc
      rcases (Memory.mem_insertCell rest addr v c).1 hc with rfl | hc
      · show k < addr; omega
      · exact h'.2.2.1 c hc

/-- A write to a cell of the store keeps the canonical form. -/
theorem Memory.wf_write (m : Memory) (addr : Nat) (v : Word) (h : m.wf = true) (ha : addr < 32768) :
    (m.write addr v).wf = true := by
  unfold Memory.write
  split
  · exact Memory.wf_filter m _ h
  · exact Memory.wf_insertCell _ addr v (Memory.wf_filter m _ h) ha ‹_› (by simp)

/-- Placing an instruction keeps the canonical form. -/
theorem Memory.wf_place (m : Memory) (addr : Nat) (ws : List Word) (h : m.wf = true) :
    (m.place addr ws).wf = true := by
  induction ws generalizing m addr with
  | nil => exact h
  | cons w rest ih =>
    simp only [Memory.place]
    split
    · exact ih _ _ (Memory.wf_write m addr w h ‹_›)
    · exact ih _ _ h

theorem cellsFrom_index (addr : Nat) (ws : List Word) :
    ∀ c ∈ cellsFrom addr ws, addr ≤ c.1 ∧ c.1 < addr + ws.length := by
  induction ws generalizing addr with
  | nil => simp [cellsFrom]
  | cons w rest ih =>
    intro c hc
    simp only [cellsFrom] at hc
    split at hc
    · have := ih (addr + 1) c hc; simp only [List.length_cons]; omega
    · rcases List.mem_cons.1 hc with rfl | hc
      · simp
      · have := ih (addr + 1) c hc; simp only [List.length_cons]; omega

/-- Loaded words are in canonical form. -/
theorem cellsFrom_wf (addr : Nat) (ws : List Word) (h : addr + ws.length ≤ 32768) :
    (cellsFrom addr ws).wf = true := by
  induction ws generalizing addr with
  | nil => rfl
  | cons w rest ih =>
    have hl : addr + 1 + rest.length ≤ 32768 := by simp only [List.length_cons] at h; omega
    simp only [cellsFrom]
    split
    · exact ih _ hl
    · rw [Memory.wf_cons]
      exact ⟨by omega, ‹_›, fun c hc => (cellsFrom_index _ _ c hc).1, ih _ hl⟩

/-- What a cell reads after words were loaded from cell `addr` on. -/
theorem read_cellsFrom (addr : Nat) (ws : List Word) (n : Nat) :
    (cellsFrom addr ws).read n = if addr ≤ n then ws.getD (n - addr) Config.padWord else Config.padWord := by
  induction ws generalizing addr with
  | nil => simp [cellsFrom, Memory.read]
  | cons w rest ih =>
    have hhead : ∀ m : Memory, m = cellsFrom (addr + 1) rest → n ≠ addr → m.read n =
        if addr ≤ n then (w :: rest).getD (n - addr) Config.padWord else Config.padWord := by
      rintro m rfl hn
      rw [ih]
      by_cases hle : addr ≤ n
      · rw [if_pos (by omega), if_pos hle, show n - addr = (n - (addr + 1)) + 1 by omega, List.getD_cons_succ]
      · rw [if_neg (by omega), if_neg hle]
    simp only [cellsFrom]
    by_cases hn : n = addr
    · subst hn
      split
      · rename_i hw; rw [ih, if_neg (by omega)]; simp [hw]
      · simp [Memory.read]
    · split
      · exact hhead _ rfl hn
      · simp only [Memory.read, if_neg (Ne.symm hn)]; exact hhead _ rfl hn

end Sys2Proof.Machine
end

