-- ==== Sys2Proof/Laws/PerInstr.lean ====
section
/-! SUPPORT. Statements about every instruction as syntax, one lemma per constructor. -/

namespace Sys2Proof.Laws

/-- R55: the words of a well-formed instruction decode to it, and there are `1 + arity` of them. -/
def EncodeRoundTrip.Statement (i : Instr) : Prop :=
  i.wellFormed = true → decode (encode i) = .ok (i, []) ∧ (encode i).length = 1 + arity ((encode i).headD 0)

/-- R56, R92: an opcode word from 22 up has arity 0. -/
theorem arity_of_unassigned {op : Word} (h : 22 ≤ op.toNat) : arity op = 0 := by
  unfold arity
  split <;> first | rfl | omega

/-- R56, R92: an opcode word from 22 up selects its row of the table, whatever the operand words are. -/
theorem instrOf_of_unassigned {op : Word} (h : 22 ≤ op.toNat) (a b c : Word) : instrOf op a b c = unassignedRow op := by
  unfold instrOf
  split <;> first | rfl | omega

/-- The round trip of one unassigned row, from its opcode word. -/
theorem roundTrip_of_row {op : Word} {i : Instr} (h : 22 ≤ op.toNat) (hi : unassignedRow op = i)
    (he : encode i = [op]) : decode (encode i) = .ok (i, []) ∧ (encode i).length = 1 + arity ((encode i).headD 0) := by
  rw [he]
  simp [decode, arity_of_unassigned h, instrOf_of_unassigned h, hi]

theorem opcodeWithin_bounds {lo hi : Nat} {op : Word} (h : opcodeWithin lo hi op = true) :
    lo ≤ op.toNat ∧ op.toNat ≤ hi := by
  simpa [opcodeWithin] using h

end Sys2Proof.Laws

theorem Sys2Proof.Laws.EncodeRoundTrip.halt : Sys2Proof.Laws.EncodeRoundTrip.Statement .halt := fun _ => ⟨rfl, rfl⟩

theorem Sys2Proof.Laws.EncodeRoundTrip.set (a b : Sys2Proof.Word) : Sys2Proof.Laws.EncodeRoundTrip.Statement (.set a b) := fun _ => ⟨rfl, rfl⟩

theorem Sys2Proof.Laws.EncodeRoundTrip.push (a : Sys2Proof.Word) : Sys2Proof.Laws.EncodeRoundTrip.Statement (.push a) := fun _ => ⟨rfl, rfl⟩

theorem Sys2Proof.Laws.EncodeRoundTrip.pop (a : Sys2Proof.Word) : Sys2Proof.Laws.EncodeRoundTrip.Statement (.pop a) := fun _ => ⟨rfl, rfl⟩

theorem Sys2Proof.Laws.EncodeRoundTrip.eq (a b c : Sys2Proof.Word) : Sys2Proof.Laws.EncodeRoundTrip.Statement (.eq a b c) := fun _ => ⟨rfl, rfl⟩

theorem Sys2Proof.Laws.EncodeRoundTrip.gt (a b c : Sys2Proof.Word) : Sys2Proof.Laws.EncodeRoundTrip.Statement (.gt a b c) := fun _ => ⟨rfl, rfl⟩

theorem Sys2Proof.Laws.EncodeRoundTrip.jmp (a : Sys2Proof.Word) : Sys2Proof.Laws.EncodeRoundTrip.Statement (.jmp a) := fun _ => ⟨rfl, rfl⟩

theorem Sys2Proof.Laws.EncodeRoundTrip.jt (a b : Sys2Proof.Word) : Sys2Proof.Laws.EncodeRoundTrip.Statement (.jt a b) := fun _ => ⟨rfl, rfl⟩

theorem Sys2Proof.Laws.EncodeRoundTrip.jf (a b : Sys2Proof.Word) : Sys2Proof.Laws.EncodeRoundTrip.Statement (.jf a b) := fun _ => ⟨rfl, rfl⟩

theorem Sys2Proof.Laws.EncodeRoundTrip.add (a b c : Sys2Proof.Word) : Sys2Proof.Laws.EncodeRoundTrip.Statement (.add a b c) := fun _ => ⟨rfl, rfl⟩

theorem Sys2Proof.Laws.EncodeRoundTrip.mult (a b c : Sys2Proof.Word) : Sys2Proof.Laws.EncodeRoundTrip.Statement (.mult a b c) := fun _ => ⟨rfl, rfl⟩

theorem Sys2Proof.Laws.EncodeRoundTrip.mod (a b c : Sys2Proof.Word) : Sys2Proof.Laws.EncodeRoundTrip.Statement (.mod a b c) := fun _ => ⟨rfl, rfl⟩

theorem Sys2Proof.Laws.EncodeRoundTrip.and (a b c : Sys2Proof.Word) : Sys2Proof.Laws.EncodeRoundTrip.Statement (.and a b c) := fun _ => ⟨rfl, rfl⟩

theorem Sys2Proof.Laws.EncodeRoundTrip.or (a b c : Sys2Proof.Word) : Sys2Proof.Laws.EncodeRoundTrip.Statement (.or a b c) := fun _ => ⟨rfl, rfl⟩

theorem Sys2Proof.Laws.EncodeRoundTrip.not (a b : Sys2Proof.Word) : Sys2Proof.Laws.EncodeRoundTrip.Statement (.not a b) := fun _ => ⟨rfl, rfl⟩

theorem Sys2Proof.Laws.EncodeRoundTrip.rmem (a b : Sys2Proof.Word) : Sys2Proof.Laws.EncodeRoundTrip.Statement (.rmem a b) := fun _ => ⟨rfl, rfl⟩

theorem Sys2Proof.Laws.EncodeRoundTrip.wmem (a b : Sys2Proof.Word) : Sys2Proof.Laws.EncodeRoundTrip.Statement (.wmem a b) := fun _ => ⟨rfl, rfl⟩

theorem Sys2Proof.Laws.EncodeRoundTrip.call (a : Sys2Proof.Word) : Sys2Proof.Laws.EncodeRoundTrip.Statement (.call a) := fun _ => ⟨rfl, rfl⟩

theorem Sys2Proof.Laws.EncodeRoundTrip.ret : Sys2Proof.Laws.EncodeRoundTrip.Statement .ret := fun _ => ⟨rfl, rfl⟩

theorem Sys2Proof.Laws.EncodeRoundTrip.out (a : Sys2Proof.Word) : Sys2Proof.Laws.EncodeRoundTrip.Statement (.out a) := fun _ => ⟨rfl, rfl⟩

theorem Sys2Proof.Laws.EncodeRoundTrip.input (a : Sys2Proof.Word) : Sys2Proof.Laws.EncodeRoundTrip.Statement (.input a) := fun _ => ⟨rfl, rfl⟩

theorem Sys2Proof.Laws.EncodeRoundTrip.noop : Sys2Proof.Laws.EncodeRoundTrip.Statement .noop := fun _ => ⟨rfl, rfl⟩

theorem Sys2Proof.Laws.EncodeRoundTrip.unassigned22To23 (op : Sys2Proof.Word) :
    Sys2Proof.Laws.EncodeRoundTrip.Statement (.unassigned22To23 op) := fun h => by
  have hb : 22 ≤ op.toNat ∧ op.toNat ≤ 23 := Sys2Proof.Laws.opcodeWithin_bounds h
  exact Sys2Proof.Laws.roundTrip_of_row (by omega)
    (by unfold Sys2Proof.unassignedRow; repeat (first | rw [if_neg (by omega)] | rw [if_pos (by omega)])) rfl

theorem Sys2Proof.Laws.EncodeRoundTrip.unassigned24To31 (op : Sys2Proof.Word) :
    Sys2Proof.Laws.EncodeRoundTrip.Statement (.unassigned24To31 op) := fun h => by
  have hb : 24 ≤ op.toNat ∧ op.toNat ≤ 31 := Sys2Proof.Laws.opcodeWithin_bounds h
  exact Sys2Proof.Laws.roundTrip_of_row (by omega)
    (by unfold Sys2Proof.unassignedRow; repeat (first | rw [if_neg (by omega)] | rw [if_pos (by omega)])) rfl

theorem Sys2Proof.Laws.EncodeRoundTrip.unassigned32To63 (op : Sys2Proof.Word) :
    Sys2Proof.Laws.EncodeRoundTrip.Statement (.unassigned32To63 op) := fun h => by
  have hb : 32 ≤ op.toNat ∧ op.toNat ≤ 63 := Sys2Proof.Laws.opcodeWithin_bounds h
  exact Sys2Proof.Laws.roundTrip_of_row (by omega)
    (by unfold Sys2Proof.unassignedRow; repeat (first | rw [if_neg (by omega)] | rw [if_pos (by omega)])) rfl

theorem Sys2Proof.Laws.EncodeRoundTrip.unassigned64To127 (op : Sys2Proof.Word) :
    Sys2Proof.Laws.EncodeRoundTrip.Statement (.unassigned64To127 op) := fun h => by
  have hb : 64 ≤ op.toNat ∧ op.toNat ≤ 127 := Sys2Proof.Laws.opcodeWithin_bounds h
  exact Sys2Proof.Laws.roundTrip_of_row (by omega)
    (by unfold Sys2Proof.unassignedRow; repeat (first | rw [if_neg (by omega)] | rw [if_pos (by omega)])) rfl

theorem Sys2Proof.Laws.EncodeRoundTrip.unassigned128To255 (op : Sys2Proof.Word) :
    Sys2Proof.Laws.EncodeRoundTrip.Statement (.unassigned128To255 op) := fun h => by
  have hb : 128 ≤ op.toNat ∧ op.toNat ≤ 255 := Sys2Proof.Laws.opcodeWithin_bounds h
  exact Sys2Proof.Laws.roundTrip_of_row (by omega)
    (by unfold Sys2Proof.unassignedRow; repeat (first | rw [if_neg (by omega)] | rw [if_pos (by omega)])) rfl

theorem Sys2Proof.Laws.EncodeRoundTrip.unassigned256To511 (op : Sys2Proof.Word) :
    Sys2Proof.Laws.EncodeRoundTrip.Statement (.unassigned256To511 op) := fun h => by
  have hb : 256 ≤ op.toNat ∧ op.toNat ≤ 511 := Sys2Proof.Laws.opcodeWithin_bounds h
  exact Sys2Proof.Laws.roundTrip_of_row (by omega)
    (by unfold Sys2Proof.unassignedRow; repeat (first | rw [if_neg (by omega)] | rw [if_pos (by omega)])) rfl

theorem Sys2Proof.Laws.EncodeRoundTrip.unassigned512To1023 (op : Sys2Proof.Word) :
    Sys2Proof.Laws.EncodeRoundTrip.Statement (.unassigned512To1023 op) := fun h => by
  have hb : 512 ≤ op.toNat ∧ op.toNat ≤ 1023 := Sys2Proof.Laws.opcodeWithin_bounds h
  exact Sys2Proof.Laws.roundTrip_of_row (by omega)
    (by unfold Sys2Proof.unassignedRow; repeat (first | rw [if_neg (by omega)] | rw [if_pos (by omega)])) rfl

theorem Sys2Proof.Laws.EncodeRoundTrip.unassigned1024To2047 (op : Sys2Proof.Word) :
    Sys2Proof.Laws.EncodeRoundTrip.Statement (.unassigned1024To2047 op) := fun h => by
  have hb : 1024 ≤ op.toNat ∧ op.toNat ≤ 2047 := Sys2Proof.Laws.opcodeWithin_bounds h
  exact Sys2Proof.Laws.roundTrip_of_row (by omega)
    (by unfold Sys2Proof.unassignedRow; repeat (first | rw [if_neg (by omega)] | rw [if_pos (by omega)])) rfl

theorem Sys2Proof.Laws.EncodeRoundTrip.unassigned2048To4095 (op : Sys2Proof.Word) :
    Sys2Proof.Laws.EncodeRoundTrip.Statement (.unassigned2048To4095 op) := fun h => by
  have hb : 2048 ≤ op.toNat ∧ op.toNat ≤ 4095 := Sys2Proof.Laws.opcodeWithin_bounds h
  exact Sys2Proof.Laws.roundTrip_of_row (by omega)
    (by unfold Sys2Proof.unassignedRow; repeat (first | rw [if_neg (by omega)] | rw [if_pos (by omega)])) rfl

theorem Sys2Proof.Laws.EncodeRoundTrip.unassigned4096To8191 (op : Sys2Proof.Word) :
    Sys2Proof.Laws.EncodeRoundTrip.Statement (.unassigned4096To8191 op) := fun h => by
  have hb : 4096 ≤ op.toNat ∧ op.toNat ≤ 8191 := Sys2Proof.Laws.opcodeWithin_bounds h
  exact Sys2Proof.Laws.roundTrip_of_row (by omega)
    (by unfold Sys2Proof.unassignedRow; repeat (first | rw [if_neg (by omega)] | rw [if_pos (by omega)])) rfl

theorem Sys2Proof.Laws.EncodeRoundTrip.unassigned8192To16383 (op : Sys2Proof.Word) :
    Sys2Proof.Laws.EncodeRoundTrip.Statement (.unassigned8192To16383 op) := fun h => by
  have hb : 8192 ≤ op.toNat ∧ op.toNat ≤ 16383 := Sys2Proof.Laws.opcodeWithin_bounds h
  exact Sys2Proof.Laws.roundTrip_of_row (by omega)
    (by unfold Sys2Proof.unassignedRow; repeat (first | rw [if_neg (by omega)] | rw [if_pos (by omega)])) rfl

theorem Sys2Proof.Laws.EncodeRoundTrip.unassigned16384To32767 (op : Sys2Proof.Word) :
    Sys2Proof.Laws.EncodeRoundTrip.Statement (.unassigned16384To32767 op) := fun h => by
  have hb : 16384 ≤ op.toNat ∧ op.toNat ≤ 32767 := Sys2Proof.Laws.opcodeWithin_bounds h
  exact Sys2Proof.Laws.roundTrip_of_row (by omega)
    (by unfold Sys2Proof.unassignedRow; repeat (first | rw [if_neg (by omega)] | rw [if_pos (by omega)])) rfl

theorem Sys2Proof.Laws.EncodeRoundTrip.unassigned32768To65535 (op : Sys2Proof.Word) :
    Sys2Proof.Laws.EncodeRoundTrip.Statement (.unassigned32768To65535 op) := fun h => by
  have hb : 32768 ≤ op.toNat ∧ op.toNat ≤ 65535 := Sys2Proof.Laws.opcodeWithin_bounds h
  exact Sys2Proof.Laws.roundTrip_of_row (by omega)
    (by unfold Sys2Proof.unassignedRow; repeat rw [if_neg (by omega)]) rfl
end

