-- ==== Sys2Proof/Laws/Fetch.lean ====
section
/-! SUPPORT. The decoder on a whole instruction, and everything a fetch can find. -/

namespace Sys2Proof

theorem arity_le_three (op : Word) : arity op ≤ 3 := by
  unfold arity; split <;> omega

/-- A choice between instructions has a property that both have where they are chosen. -/
theorem of_choice {P : Instr → Prop} {p : Prop} [Decidable p] {i j : Instr} (hi : p → P i) (hj : ¬ p → P j) :
    P (if p then i else j) := by
  by_cases h : p
  · rw [if_pos h]; exact hi h
  · rw [if_neg h]; exact hj h

theorem encode_unassignedRow (op : Word) : encode (unassignedRow op) = [op] := by
  unfold unassignedRow
  iterate 12 refine of_choice (P := fun i => encode i = [op]) (fun _ => rfl) (fun _ => ?_)
  rfl

theorem opcodeWithin_of {lo hi : Nat} {op : Word} (h : lo ≤ op.toNat ∧ op.toNat ≤ hi) : opcodeWithin lo hi op = true := by
  simpa [opcodeWithin] using h

theorem wellFormed_unassignedRow {op : Word} (h : 22 ≤ op.toNat) : (unassignedRow op).wellFormed = true := by
  have := op.isLt
  unfold unassignedRow
  iterate 12 refine of_choice (P := fun i => i.wellFormed = true) (fun _ => opcodeWithin_of (by omega)) (fun _ => ?_)
  exact opcodeWithin_of (by omega)

/-- R55: the instruction an opcode word selects has that word and the declared operands as its encoding. -/
theorem encode_instrOf (op a b c : Word) : encode (instrOf op a b c) = op :: [a, b, c].take (arity op) := by
  by_cases h : 22 ≤ op.toNat
  · rw [Laws.instrOf_of_unassigned h, Laws.arity_of_unassigned h, encode_unassignedRow]; rfl
  · have hop : op = BitVec.ofNat 16 op.toNat := by simp
    generalize hn : op.toNat = n at h hop
    subst hop
    have : n < 22 := by omega
    interval_cases n <;> rfl

theorem wellFormed_instrOf (op a b c : Word) : (instrOf op a b c).wellFormed = true := by
  by_cases h : 22 ≤ op.toNat
  · rw [Laws.instrOf_of_unassigned h]; exact wellFormed_unassignedRow h
  · have hop : op = BitVec.ofNat 16 op.toNat := by simp
    generalize hn : op.toNat = n at h hop
    subst hop
    have : n < 22 := by omega
    interval_cases n <;> rfl

end Sys2Proof

namespace Sys2Proof.Machine

/-- R72: what an operand fetch returns, by whether the Program Store reaches far enough. -/
theorem fetchOperands_eq (m : Memory) (addr n : Nat) :
    fetchOperands m addr n =
      if addr + n ≤ 32768 ∨ n = 0 then some ((List.range n).map fun k => m.read (addr + k)) else none := by
  induction n generalizing addr with
  | zero => simp [fetchOperands]
  | succ n ih =>
    simp only [fetchOperands, Config.memWords, ih]
    by_cases h : addr + (n + 1) ≤ 32768
    · rw [if_neg (by omega), if_pos (by omega), if_pos (by omega)]
      simp only [Option.map_some, List.range_succ_eq_map, List.map_cons, List.map_map, Nat.add_zero]
      congr 2
      apply List.map_congr_left
      intro k _
      simp only [Function.comp_apply]
      congr 1; omega
    · rw [if_neg (show ¬ (addr + (n + 1) ≤ 32768 ∨ n + 1 = 0) by omega)]
      by_cases h' : 32768 ≤ addr
      · rw [if_pos h']
      · rw [if_neg h', if_neg (by omega)]; rfl

/-- Everything a fetch can find (R71, R72, R73). -/
theorem fetch_cases (s : State) :
    (32768 ≤ s.pc.toNat ∧ fetch s = .endOfStore) ∨
    (s.pc.toNat < 32768 ∧ 32768 < s.pc.toNat + 1 + arity (s.mem.read s.pc.toNat) ∧ fetch s = .truncated) ∨
    (s.pc.toNat + 1 + arity (s.mem.read s.pc.toNat) ≤ 32768 ∧
      ∃ a b c, fetch s = .instr (instrOf (s.mem.read s.pc.toNat) a b c) ∧
        [a, b, c].take (arity (s.mem.read s.pc.toNat)) =
          (List.range (arity (s.mem.read s.pc.toNat))).map fun k => s.mem.read (s.pc.toNat + 1 + k)) := by
  by_cases h : 32768 ≤ s.pc.toNat
  · refine .inl ⟨h, ?_⟩
    unfold fetch; exact if_pos h
  · have hf : fetch s = _ := if_neg h
    by_cases ht : s.pc.toNat + 1 + arity (s.mem.read s.pc.toNat) ≤ 32768
    · refine .inr (.inr ⟨ht, ?_⟩)
      rw [hf, fetchOperands_eq, if_pos (.inl ht)]
      simp only [decode]
      rw [if_neg (by simp)]
      refine ⟨_, _, _, rfl, ?_⟩
      have h3 := arity_le_three (s.mem.read s.pc.toNat)
      generalize arity (s.mem.read s.pc.toNat) = n at h3
      interval_cases n <;> rfl
    · refine .inr (.inl ⟨by omega, by omega, ?_⟩)
      rw [hf, fetchOperands_eq, if_neg (by omega)]

/-- R72, R73: a fetched instruction is well-formed, and its words are the cells from the pc on. -/
theorem fetch_instr {s : State} {i : Instr} (h : fetch s = .instr i) :
    i.wellFormed = true ∧ s.pc.toNat + (encode i).length ≤ 32768 ∧
    encode i = (List.range (encode i).length).map fun k => s.mem.read (s.pc.toNat + k) := by
  rcases fetch_cases s with ⟨-, e⟩ | ⟨-, -, e⟩ | ⟨hl, a, b, c, e, hw⟩
  · rw [h] at e; cases e
  · rw [h] at e; cases e
  · rw [h] at e; cases e
    refine ⟨wellFormed_instrOf _ a b c, ?_, ?_⟩
    · rw [encode_instrOf, hw]; simp; omega
    · rw [encode_instrOf, hw]
      simp only [List.length_cons, List.length_map, List.length_range, List.range_succ_eq_map, List.map_cons,
        List.map_map, Nat.add_zero, List.cons.injEq, true_and]
      apply List.map_congr_left
      intro k _
      simp only [Function.comp_apply]
      congr 1; omega

/-- Everything a step can do. -/
theorem step_cases {s t : State} (h : step s = .next t) :
    s.status = .running ∧
    ((32768 ≤ s.pc.toNat ∧ t = s.halt) ∨
     (s.pc.toNat < 32768 ∧ 32768 < s.pc.toNat + 1 + arity (s.mem.read s.pc.toNat) ∧ t = s.raise .truncatedInstruction) ∨
     ∃ i, fetch s = .instr i ∧ exec i s = .next t) := by
  unfold step at h
  split at h
  · refine ⟨‹_›, ?_⟩
    rcases fetch_cases s with ⟨hp, e⟩ | ⟨hp, ht, e⟩ | ⟨hl, a, b, c, e, -⟩
    · rw [e] at h; cases h; exact .inl ⟨hp, rfl⟩
    · rw [e] at h; cases h; exact .inr (.inl ⟨hp, ht, rfl⟩)
    · rw [e] at h; exact .inr (.inr ⟨_, e, h⟩)
  · cases h
  · cases h

end Sys2Proof.Machine
end

