-- ==== Sys2Proof/Laws/Inv.lean ====
section
/-! SUPPORT. The parts of the invariant, one at a time, over one instruction. -/

namespace Sys2Proof.Machine

theorem toNat_advance {s : State} {n : Nat} (h : s.pc.toNat + n ≤ 32768) :
    (s.pc + BitVec.ofNat 16 n).toNat = s.pc.toNat + n := by
  rw [BitVec.toNat_add, BitVec.toNat_ofNat]
  have h1 : n % 2 ^ 16 = n := Nat.mod_eq_of_lt (by omega)
  rw [h1]
  exact Nat.mod_eq_of_lt (by omega)

/-- R33: the store keeps its canonical form over every instruction. -/
theorem exec_keeps_memory_wf {i : Instr} {s t : State} (h : exec i s = .next t) (hm : s.mem.wf = true) :
    t.mem.wf = true := by
  cases exec_cases h with
  | store a b addr v hi ha hv => exact Memory.wf_write _ _ _ hm ha.2
  | _ => exact hm

end Sys2Proof.Machine
end

