-- ==== Sys2Proof/Tests/Slice0.lean ====
section
/-! SUPPORT. The model's own tests. Expected results are the spec's: its encodings (30_encoding R55, R62), its worked
examples S1 to S9 and its vectors V1 to V236 (95_test_vectors.md). Then, for every statement with hypotheses, a state and
operands that meet them, clause by clause. -/

namespace Sys2Proof.Tests

open Sys2Proof Sys2Proof.Machine

/-! ## Well-formedness: an ill-formed term for each check -/

theorem test_wellFormed_refuses_row_22_23 : Instr.wellFormed (.unassigned22To23 21) = false ∧ Instr.wellFormed (.unassigned22To23 24) = false := by decide
theorem test_wellFormed_refuses_row_24_31 : Instr.wellFormed (.unassigned24To31 23) = false ∧ Instr.wellFormed (.unassigned24To31 32) = false := by decide
theorem test_wellFormed_refuses_row_32_63 : Instr.wellFormed (.unassigned32To63 31) = false ∧ Instr.wellFormed (.unassigned32To63 64) = false := by decide
theorem test_wellFormed_refuses_row_64_127 : Instr.wellFormed (.unassigned64To127 63) = false ∧ Instr.wellFormed (.unassigned64To127 128) = false := by decide
theorem test_wellFormed_refuses_row_128_255 : Instr.wellFormed (.unassigned128To255 127) = false ∧ Instr.wellFormed (.unassigned128To255 256) = false := by decide
theorem test_wellFormed_refuses_row_256_511 : Instr.wellFormed (.unassigned256To511 255) = false ∧ Instr.wellFormed (.unassigned256To511 512) = false := by decide
theorem test_wellFormed_refuses_row_512_1023 : Instr.wellFormed (.unassigned512To1023 511) = false ∧ Instr.wellFormed (.unassigned512To1023 1024) = false := by decide
theorem test_wellFormed_refuses_row_1024_2047 : Instr.wellFormed (.unassigned1024To2047 1023) = false ∧ Instr.wellFormed (.unassigned1024To2047 2048) = false := by decide
theorem test_wellFormed_refuses_row_2048_4095 : Instr.wellFormed (.unassigned2048To4095 2047) = false ∧ Instr.wellFormed (.unassigned2048To4095 4096) = false := by decide
theorem test_wellFormed_refuses_row_4096_8191 : Instr.wellFormed (.unassigned4096To8191 4095) = false ∧ Instr.wellFormed (.unassigned4096To8191 8192) = false := by decide
theorem test_wellFormed_refuses_row_8192_16383 : Instr.wellFormed (.unassigned8192To16383 8191) = false ∧ Instr.wellFormed (.unassigned8192To16383 16384) = false := by decide
theorem test_wellFormed_refuses_row_16384_32767 : Instr.wellFormed (.unassigned16384To32767 16383) = false ∧ Instr.wellFormed (.unassigned16384To32767 32768) = false := by decide
theorem test_wellFormed_refuses_row_32768_65535 : Instr.wellFormed (.unassigned32768To65535 32767) = false ∧ Instr.wellFormed (.unassigned32768To65535 0) = false := by decide

/-! ## Decoding: words written out bit by bit from the table of R55 -/

theorem test_decode_halt : decode [0b0000000000000000] = .ok (.halt, []) := by decide
theorem test_decode_set : decode [0b0000000000000001, 0x8000, 65] = .ok (.set 32768 65, []) := by decide
theorem test_decode_push : decode [0b0000000000000010, 7] = .ok (.push 7, []) := by decide
theorem test_decode_pop : decode [0b0000000000000011, 0x8001] = .ok (.pop 32769, []) := by decide
theorem test_decode_eq : decode [0b0000000000000100, 0x8001, 0x8000, 65] = .ok (.eq 32769 32768 65, []) := by decide
theorem test_decode_gt : decode [0b0000000000000101, 0x8000, 7, 3] = .ok (.gt 32768 7 3, []) := by decide
theorem test_decode_jmp : decode [0b0000000000000110, 3, 19, 88, 0] = .ok (.jmp 3, [19, 88, 0]) := by decide
theorem test_decode_jt : decode [0b0000000000000111, 0x8001, 6] = .ok (.jt 32769 6, []) := by decide
theorem test_decode_jf : decode [0b0000000000001000, 0x8001, 17] = .ok (.jf 32769 17, []) := by decide
theorem test_decode_add : decode [0b0000000000001001, 0x8000, 32767, 5] = .ok (.add 32768 32767 5, []) := by decide
theorem test_decode_mult : decode [0b0000000000001010, 0x8000, 0x8000, 0x8001] = .ok (.mult 32768 32768 32769, []) := by decide
theorem test_decode_mod : decode [0b0000000000001011, 0x8000, 7, 3] = .ok (.mod 32768 7 3, []) := by decide
theorem test_decode_and : decode [0b0000000000001100, 0x8000, 12, 10] = .ok (.and 32768 12 10, []) := by decide
theorem test_decode_or : decode [0b0000000000001101, 0x8000, 12, 10] = .ok (.or 32768 12 10, []) := by decide
theorem test_decode_not : decode [0b0000000000001110, 0x8000, 0] = .ok (.not 32768 0, []) := by decide
theorem test_decode_rmem : decode [0b0000000000001111, 0x8001, 0x8000] = .ok (.rmem 32769 32768, []) := by decide
theorem test_decode_wmem : decode [0b0000000000010000, 5, 66] = .ok (.wmem 5 66, []) := by decide
theorem test_decode_call : decode [0b0000000000010001, 17] = .ok (.call 17, []) := by decide
theorem test_decode_ret : decode [0b0000000000010010, 18] = .ok (.ret, [18]) := by decide
theorem test_decode_out : decode [0b0000000000010011, 65, 0] = .ok (.out 65, [0]) := by decide
theorem test_decode_in : decode [0b0000000000010100, 0x8000] = .ok (.input 32768, []) := by decide
theorem test_decode_noop : decode [0b0000000000010101, 21, 0] = .ok (.noop, [21, 0]) := by decide
theorem test_decode_unassigned_low :
    decode [0b0000000000010110] = .ok (.unassigned22To23 22, []) ∧
    decode [0b0000000000011111] = .ok (.unassigned24To31 31, []) ∧
    decode [0b0000000000100000] = .ok (.unassigned32To63 32, []) ∧
    decode [0b0000000001011000] = .ok (.unassigned64To127 88, []) ∧
    decode [0b0000000011111111] = .ok (.unassigned128To255 255, []) ∧
    decode [0b0000000100000000] = .ok (.unassigned256To511 256, []) := by decide
theorem test_decode_unassigned_high :
    decode [0b0000001111111111] = .ok (.unassigned512To1023 1023, []) ∧
    decode [0b0000010000000000] = .ok (.unassigned1024To2047 1024, []) ∧
    decode [0b0000111111111111] = .ok (.unassigned2048To4095 4095, []) ∧
    decode [0b0001000000000000] = .ok (.unassigned4096To8191 4096, []) ∧
    decode [0b0011111111111111] = .ok (.unassigned8192To16383 16383, []) ∧
    decode [0b0100000000000000] = .ok (.unassigned16384To32767 16384, []) ∧
    decode [0b1000000000000000] = .ok (.unassigned32768To65535 32768, []) ∧
    decode [0b1111111111111111] = .ok (.unassigned32768To65535 65535, []) := by decide
/-- V230, V231 and the numbering of the opcode table. -/
theorem test_decode_image_bytes :
    decodeBytes [0x13, 0x00, 0x41, 0x00, 0x00, 0x00] = .ok (.out 65, [0]) ∧
    wordsOfBytes [0x01, 0x00, 0x00, 0x80, 0x41, 0x00] = some [1, 32768, 65] ∧
    decodeTableWord 16 9 = some (.add 0 0 0) ∧
    decodeTableWord 64 (9 + 2 ^ 16 * 32768 + 2 ^ 32 * 32767 + 2 ^ 48 * 5) = some (.add 32768 32767 5) := by decide

/-! ## One step, against the spec's examples and vectors -/

/-- A program at cell 0 of the state after reset, with some registers set. -/
def program (words : List Word) (x : Vector Word 8 := Vector.replicate 8 0) : State :=
  { State.reset with mem := cellsFrom 0 words, x := x }

/-- A part of the state after one step. -/
def afterStep {α : Type} (s : State) (part : State → α) : Option α :=
  match step s with
  | .next t => some (part t)
  | .fault _ => none
  | .refused _ => none

/-- V1. -/
theorem test_halt_V1 : afterStep (program [0]) (fun t => (t.status, t.pc)) = some (.halted, 1) := by decide
/-- V2. -/
theorem test_noop_V2 : afterStep (program [21, 21, 0]) (fun t => (t.status, t.pc)) = some (.running, 1) := by decide
/-- V3, V4, V5. -/
theorem test_unassigned_V3_V4_V5 :
    afterStep (program [22]) (fun t => (t.status, t.pc)) = some (.halted, 1) ∧
    afterStep (program [65535]) (fun t => (t.status, t.pc)) = some (.halted, 1) ∧
    afterStep (program [32768]) (fun t => (t.status, t.pc)) = some (.halted, 1) := by decide
/-- V9, V10: the end of the store at an opcode and inside an instruction. -/
theorem test_end_of_store_V9_V10 :
    afterStep { State.reset with pc := 32768 } (fun t => (t.status, t.pc)) = some (.halted, 32768) ∧
    afterStep { State.reset with pc := 32767, mem := [(32767, 19)] } (fun t => (t.status, t.pc)) =
      some (.aborted .truncatedInstruction 32767, 32767) := by decide
/-- V20, V21. -/
theorem test_set_V20_V21 :
    afterStep (program [1, 32768, 1234, 0]) (fun t => (t.reg 0, t.pc)) = some (1234, 3) ∧
    afterStep (program [1, 32769, 32768, 0] #v[40000, 0, 0, 0, 0, 0, 0, 0]) (fun t => t.reg 1) = some 40000 := by decide
/-- V23, V25: the destination is checked first. -/
theorem test_set_V23_V25 :
    afterStep (program [1, 5, 40000]) (fun t => (t.status, t.pc)) = some (.aborted .invalidRegisterTarget 0, 0) ∧
    afterStep (program [1, 32776, 5]) (fun t => t.status) = some (.aborted .invalidRegisterTarget 0) := by decide
/-- V26, first step, and V32. -/
theorem test_push_V26_V32 :
    afterStep (program [2, 7]) (fun t => (t.stack, t.pc)) = some ([7], 2) ∧
    afterStep (program [2, 32776]) (fun t => (t.status, t.stack)) = some (.aborted .invalidOperand 0, []) := by decide
/-- V28, V29, V31. -/
theorem test_pop_V28_V29_V31 :
    afterStep { program [3, 32768, 0] with stack := [1, 2, 3] } (fun t => (t.reg 0, t.stack)) = some (3, [1, 2]) ∧
    afterStep (program [3, 32768]) (fun t => t.status) = some (.aborted .stackUnderflow 0) ∧
    afterStep (program [3, 5]) (fun t => t.status) = some (.aborted .invalidRegisterTarget 0) := by decide
/-- V42, V43. -/
theorem test_eq_V42_V43 :
    afterStep (program [4, 32768, 32768, 32768, 0] #v[7, 0, 0, 0, 0, 0, 0, 0]) (fun t => (t.reg 0, t.pc)) = some (1, 4) ∧
    afterStep (program [4, 32768, 32769, 0, 0] #v[9, 32768, 0, 0, 0, 0, 0, 0]) (fun t => t.reg 0) = some 0 := by decide
/-- V45, V47. -/
theorem test_gt_V45_V47 :
    afterStep (program [5, 32768, 5, 5, 0] #v[7, 0, 0, 0, 0, 0, 0, 0]) (fun t => t.reg 0) = some 0 ∧
    afterStep (program [5, 32768, 32769, 32767, 0] #v[0, 32768, 0, 0, 0, 0, 0, 0]) (fun t => t.reg 0) = some 1 := by decide
/-- S4 first step, V61, V62. -/
theorem test_jmp_S4_V61_V62 :
    afterStep (program [6, 3, 19, 88, 0]) (fun t => t.pc) = some 3 ∧
    afterStep (program [6, 32768] #v[32768, 0, 0, 0, 0, 0, 0, 0]) (fun t => t.status) = some (.aborted .invalidAddress 0) ∧
    afterStep (program [6, 32776]) (fun t => t.status) = some (.aborted .invalidOperand 0) := by decide
/-- V65, V66, V67. -/
theorem test_jt_V65_V66_V67 :
    afterStep (program [7, 0, 40000, 19, 66, 0]) (fun t => (t.status, t.pc)) = some (.running, 3) ∧
    afterStep (program [7, 32768, 6] #v[32768, 0, 0, 0, 0, 0, 0, 0]) (fun t => t.pc) = some 6 ∧
    afterStep (program [7, 1, 40000]) (fun t => t.status) = some (.aborted .invalidOperand 0) := by decide
/-- V70, V71, V72. -/
theorem test_jf_V70_V71_V72 :
    afterStep (program [8, 0, 4, 0, 19, 66, 0]) (fun t => t.pc) = some 4 ∧
    afterStep (program [8, 1, 40000, 19, 66, 0]) (fun t => (t.status, t.pc)) = some (.running, 3) ∧
    afterStep (program [8, 32768, 6] #v[32768, 0, 0, 0, 0, 0, 0, 0]) (fun t => t.pc) = some 3 := by decide
/-- V80 first step, V83, V89. -/
theorem test_call_V80_V83_V89 :
    afterStep (program [17, 3, 0, 18]) (fun t => (t.stack, t.pc)) = some ([2], 3) ∧
    afterStep (program [17, 32768] #v[32768, 0, 0, 0, 0, 0, 0, 0]) (fun t => (t.status, t.stack)) =
      some (.aborted .invalidAddress 0, []) ∧
    afterStep { State.reset with pc := 32766, mem := [(32766, 17)] } (fun t => (t.stack, t.pc)) = some ([32768], 0) := by
  decide
/-- S5. -/
theorem test_ret_S5 : afterStep (program [18]) (fun t => (t.status, t.output)) = some (.aborted .stackUnderflow 0, []) := by
  decide
/-- V86, V87, V88, their last steps. -/
theorem test_ret_V86_V87_V88 :
    afterStep { program [18] #v[0, 32770, 5, 0, 0, 0, 0, 0] with stack := [32770] } (fun t => (t.stack, t.pc)) = some ([], 5) ∧
    afterStep { program [18] #v[0, 32770, 40000, 0, 0, 0, 0, 0] with stack := [32770] } (fun t => (t.status, t.stack)) =
      some (.aborted .invalidAddress 0, [32770]) ∧
    afterStep { program [18] with stack := [40000] } (fun t => t.status) = some (.aborted .invalidOperand 0) := by decide
/-- V100, V107, V108. -/
theorem test_add_V100_V107_V108 :
    afterStep (program [9, 32768, 32767, 5, 0]) (fun t => (t.reg 0, t.pc)) = some (4, 4) ∧
    afterStep (program [9, 32768, 32769, 32770, 0] #v[0, 65535, 65535, 0, 0, 0, 0, 0]) (fun t => t.reg 0) = some 32766 ∧
    afterStep (program [9, 32768, 32768, 32768, 0] #v[5, 0, 0, 0, 0, 0, 0, 0]) (fun t => t.reg 0) = some 10 := by decide
/-- V111, V117, V119. -/
theorem test_mult_V111_V117_V119 :
    afterStep (program [10, 32768, 32767, 32767, 0]) (fun t => t.reg 0) = some 1 ∧
    afterStep (program [10, 32768, 32769, 32770, 0] #v[0, 65535, 65535, 0, 0, 0, 0, 0]) (fun t => t.reg 0) = some 1 ∧
    afterStep (program [10, 32768, 32769, 32769, 0] #v[0, 40000, 0, 0, 0, 0, 0, 0]) (fun t => t.reg 0) = some 4096 := by
  decide
/-- V121, V129, V130. -/
theorem test_mod_V121_V129_V130 :
    afterStep (program [11, 32768, 5, 7, 0]) (fun t => t.reg 0) = some 5 ∧
    afterStep (program [11, 32768, 32769, 32770, 0] #v[0, 40000, 65535, 0, 0, 0, 0, 0]) (fun t => t.reg 0) = some 40000 ∧
    afterStep (program [11, 32768, 32769, 32767, 0] #v[0, 65535, 0, 0, 0, 0, 0, 0]) (fun t => t.reg 0) = some 1 := by decide
/-- V127, V173, V174. -/
theorem test_mod_V127_V173_V174 :
    afterStep (program [11, 32768, 0, 0]) (fun t => (t.status, t.reg 0)) = some (.aborted .arithmeticError 0, 0) ∧
    afterStep (program [11, 5, 1, 0]) (fun t => t.status) = some (.aborted .invalidRegisterTarget 0) ∧
    afterStep (program [11, 32768, 32776, 0]) (fun t => t.status) = some (.aborted .invalidOperand 0) := by decide
/-- V140, V144. -/
theorem test_and_V140_V144 :
    afterStep (program [12, 32768, 12, 10, 0]) (fun t => t.reg 0) = some 8 ∧
    afterStep (program [12, 32768, 32769, 32770, 0] #v[0, 32769, 32771, 0, 0, 0, 0, 0]) (fun t => t.reg 0) = some 32769 := by
  decide
/-- V151, V154. -/
theorem test_or_V151_V154 :
    afterStep (program [13, 32768, 21845, 10922, 0]) (fun t => t.reg 0) = some 32767 ∧
    afterStep (program [13, 32768, 32769, 1, 0] #v[0, 32768, 0, 0, 0, 0, 0, 0]) (fun t => t.reg 0) = some 32769 := by decide
/-- V160, V164, V166. -/
theorem test_not_V160_V164_V166 :
    afterStep (program [14, 32768, 0, 0]) (fun t => (t.reg 0, t.pc)) = some (32767, 3) ∧
    afterStep (program [14, 32768, 32769, 0] #v[0, 32768, 0, 0, 0, 0, 0, 0]) (fun t => t.reg 0) = some 32767 ∧
    afterStep (program [14, 32768, 32769, 0] #v[0, 40000, 0, 0, 0, 0, 0, 0]) (fun t => t.reg 0) = some 25535 := by decide
/-- V180, V182, V186. -/
theorem test_rmem_V180_V182_V186 :
    afterStep (program [15, 32768, 4, 0, 12345]) (fun t => (t.reg 0, t.pc)) = some (12345, 3) ∧
    afterStep (program [15, 32768, 0, 0]) (fun t => t.reg 0) = some 15 ∧
    afterStep (program [15, 32768, 32769] #v[0, 32768, 0, 0, 0, 0, 0, 0]) (fun t => t.status) =
      some (.aborted .invalidAddress 0) := by decide
/-- V190, V191, V195. -/
theorem test_wmem_V190_V191_V195 :
    afterStep (program [16, 100, 32768, 0] #v[40000, 0, 0, 0, 0, 0, 0, 0]) (fun t => (t.mem.read 100, t.pc)) = some (40000, 3) ∧
    afterStep (program [16, 32768, 32769, 0] #v[32767, 9, 0, 0, 0, 0, 0, 0]) (fun t => t.mem.read 32767) = some 9 ∧
    afterStep (program [16, 2, 32768, 0] #v[5, 0, 0, 0, 0, 0, 0, 0]) (fun t => t.mem.read 2) = some 5 := by decide
/-- V192, V194. -/
theorem test_wmem_V192_V194 :
    afterStep (program [16, 32768, 5] #v[32768, 0, 0, 0, 0, 0, 0, 0]) (fun t => t.status) = some (.aborted .invalidAddress 0) ∧
    afterStep (program [16, 5, 32776]) (fun t => (t.status, t.mem.read 5)) = some (.aborted .invalidOperand 0, 0) := by decide
/-- S1 first step, V201, V203, and the largest legal value of V200. -/
theorem test_out_S1_V200_V201_V203 :
    afterStep (program [19, 65, 0]) (fun t => (t.output, t.pc)) = some ([65], 2) ∧
    afterStep (program [19, 255]) (fun t => t.output) = some [255] ∧
    afterStep (program [19, 256]) (fun t => (t.status, t.output)) = some (.aborted .invalidOutputValue 0, []) ∧
    afterStep (program [19, 32776]) (fun t => t.status) = some (.aborted .invalidOperand 0) := by decide
/-- V211, V212, V213. -/
theorem test_in_V211_V212_V213 :
    afterStep { program [20, 32768, 0] with input := [[120, 121, 122], [119]], inputClosed := true }
      (fun t => (t.reg 0, t.inbuf, t.input, t.pc)) = some (120, [121, 122], [[119]], 2) ∧
    afterStep { program [20, 32768, 0] with inputClosed := true } (fun t => t.status) = some (.aborted .inputExhausted 0) ∧
    afterStep (program [20, 32768, 0]) (fun t => decide (t = program [20, 32768, 0])) = some true := by decide
/-- V215, V216, V217. -/
theorem test_in_V215_V216_V217 :
    afterStep { program [20, 5] with input := [[120]], inputClosed := true } (fun t => (t.status, t.input)) =
      some (.aborted .invalidRegisterTarget 0, [[120]]) ∧
    afterStep (program [20, 32776]) (fun t => t.status) = some (.aborted .invalidRegisterTarget 0) ∧
    afterStep { program [20, 32768, 0] with input := [[], [120]], inputClosed := true } (fun t => (t.status, t.reg 0, t.input)) =
      some (.aborted .emptyInputLine 0, 0, [[120]]) := by decide
/-- V230, V233, V7: loading. -/
theorem test_load_V230_V233_V7 :
    (load [0x13, 0x00, 0x41, 0x00, 0x00, 0x00]).toOption = some (program [19, 65, 0]) ∧
    (load [0x13, 0x00, 0x41]) = .error .malformedImage ∧
    loadSignal (load [0x13, 0x00, 0x41]) = .failure .malformedImage none ∧
    (load []).toOption = some State.reset := by
  exact ⟨by decide, rfl, by decide⟩
/-- D13's three cases. -/
theorem test_stripTerminator :
    stripTerminator [97, 13, 10] = [97] ∧ stripTerminator [97, 10] = [97] ∧ stripTerminator [97, 13] = [97, 13] := by decide
/-- A placed instruction is the one the next step runs: `set r1, 7` and an unassigned opcode from the state after reset. -/
theorem test_withFetchWord :
    afterStep (State.reset.withFetchWord 48 (1 + 2 ^ 16 * 32769 + 2 ^ 32 * 7)) (fun t => (t.reg 1, t.pc)) = some (7, 3) ∧
    afterStep (State.reset.withFetchWord 16 22) (fun t => t.status) = some .halted := by decide

/-! ## Witnesses: states and operands that meet the statements' hypotheses -/

/-- Registers at the boundaries the statements speak of. -/
def sample : State :=
  { State.reset with
    x := #v[5, 32768, 0, 65535, 32767, 40000, 255, 256], pc := 32764, stack := [8, 32772], mem := [(32764, 9), (32767, 3)] }

theorem witness_UnassignedOpcodeHalts : 22 ≤ (22 : Word).toNat ∧ 22 ≤ (65535 : Word).toNat := by decide
theorem witness_SetMovesTheWholeWord :
    (DestIs 32775 7 ∧ OperandIs sample 32769 32768) ∧ (NotRegister 32767 ∧ NotRegister 32776) ∧
    (¬ NotRegister 32768 ∧ InvalidRaw 32776) := by decide
theorem witness_PushAppendsTheResolvedWord :
    OperandIs sample 32767 32767 ∧ OperandIs sample 32768 5 ∧ OperandIs sample 32775 256 ∧ InvalidRaw 32776 := by decide
theorem witness_PopMovesTheTopToTheRegister :
    (DestIs 32768 0 ∧ sample.stack = [8] ++ [32772]) ∧ NotRegister 32767 ∧ (¬ NotRegister 32775 ∧ State.reset.stack = []) := by
  decide
theorem witness_EqWritesOneWhenEqual :
    (DestIs 32768 0 ∧ OperandIs sample 32769 32768 ∧ OperandIs sample 0 0) ∧ NotRegister 32776 ∧
    (¬ NotRegister 32775 ∧ (InvalidRaw 5 ∨ InvalidRaw 32776)) := by decide
theorem witness_GtWritesOneWhenGreater :
    (DestIs 32775 7 ∧ OperandIs sample 32769 32768 ∧ OperandIs sample 32767 32767) ∧ NotRegister 32767 ∧
    (¬ NotRegister 32768 ∧ (InvalidRaw 32776 ∨ InvalidRaw 5)) := by decide
theorem witness_JmpSetsThePc :
    AddressIs sample 32767 32767 ∧ AddressIs sample 32772 32767 ∧ InvalidRaw 32776 ∧ NoCellInRegister sample 32769 := by decide
theorem witness_JtJumpsOnNonzero :
    (OperandIs sample 32769 32768 ∧ (32768 : Word).toNat ≠ 0 ∧ AddressIs sample 0 0) ∧
    (OperandIs sample 32770 0 ∧ (0 : Word).toNat = 0) ∧ InvalidRaw 32776 ∧
    (OperandIs sample 1 1 ∧ (1 : Word).toNat ≠ 0 ∧ InvalidRaw 40000 ∧ NoCellInRegister sample 32771) := by decide
theorem witness_JfJumpsOnZero :
    (OperandIs sample 32770 0 ∧ (0 : Word).toNat = 0 ∧ AddressIs sample 32772 32767) ∧
    (OperandIs sample 32769 32768 ∧ (32768 : Word).toNat ≠ 0) ∧ InvalidRaw 65535 ∧
    (OperandIs sample 0 0 ∧ (0 : Word).toNat = 0 ∧ InvalidRaw 32776 ∧ NoCellInRegister sample 32769) := by decide
theorem witness_CallPushesTheReturnAddress :
    AddressIs sample 0 0 ∧ AddressIs sample 32772 32767 ∧ InvalidRaw 32776 ∧ NoCellInRegister sample 32773 := by decide
theorem witness_RetResolvesTheTopWord :
    (sample.stack = [8] ++ [32772] ∧ AddressIs sample 32772 32767) ∧ State.reset.stack = [] ∧
    (({ sample with stack := [32776] } : State).stack = [] ++ [32776] ∧ InvalidRaw 32776) ∧
    (({ sample with stack := [32769] } : State).stack = [] ++ [32769] ∧ NoCellInRegister { sample with stack := [32769] } 32769) := by
  decide
theorem witness_AddWritesTheSumModulo32768 :
    (DestIs 32768 0 ∧ OperandIs sample 32771 65535 ∧ OperandIs sample 32767 32767) ∧ NotRegister 5 ∧
    (¬ NotRegister 32768 ∧ (InvalidRaw 1 ∨ InvalidRaw 32776)) := by decide
theorem witness_MultWritesTheProductModulo32768 :
    (DestIs 32775 7 ∧ OperandIs sample 32771 65535 ∧ OperandIs sample 32771 65535) ∧ NotRegister 32776 ∧
    (¬ NotRegister 32775 ∧ (InvalidRaw 32776 ∨ InvalidRaw 1)) := by decide
theorem witness_ModWritesTheUnsignedRemainder :
    (DestIs 32768 0 ∧ OperandIs sample 32771 65535 ∧ OperandIs sample 32767 32767 ∧ (1 : Word).toNat < (32767 : Word).toNat ∧
      (65535 : Word).toNat = 2 * (32767 : Word).toNat + (1 : Word).toNat) ∧
    (DestIs 32768 0 ∧ OperandIs sample 0 0 ∧ OperandIs sample 32770 0 ∧ (0 : Word).toNat = 0) ∧ NotRegister 32767 ∧
    (¬ NotRegister 32768 ∧ (InvalidRaw 32776 ∨ InvalidRaw 0)) := by decide
theorem witness_AndWritesTheBitwiseAnd :
    (DestIs 32768 0 ∧ OperandIs sample 32769 32768 ∧ OperandIs sample 32771 65535 ∧
      ∀ k : Fin 16, (32768 : Word).getLsbD k = ((32768 : Word).getLsbD k && (65535 : Word).getLsbD k)) ∧ NotRegister 0 ∧
    (¬ NotRegister 32775 ∧ (InvalidRaw 0 ∨ InvalidRaw 32776)) := by decide
theorem witness_OrWritesTheBitwiseOr :
    (DestIs 32775 7 ∧ OperandIs sample 32769 32768 ∧ OperandIs sample 1 1 ∧
      ∀ k : Fin 16, (32769 : Word).getLsbD k = ((32768 : Word).getLsbD k || (1 : Word).getLsbD k)) ∧ NotRegister 65535 ∧
    (¬ NotRegister 32768 ∧ (InvalidRaw 32776 ∨ InvalidRaw 0)) := by decide
theorem witness_NotWritesTheFifteenBitComplement :
    (DestIs 32768 0 ∧ OperandIs sample 32769 32768 ∧
      (∀ k : Fin 15, (32767 : Word).getLsbD k = !(32768 : Word).getLsbD k) ∧ (32767 : Word).getLsbD 15 = false) ∧ NotRegister 0 ∧
    (¬ NotRegister 32768 ∧ InvalidRaw 32776) := by decide
theorem witness_RmemReadsTheCell :
    (DestIs 32775 7 ∧ AddressIs sample 32772 32767) ∧ NotRegister 7 ∧
    (¬ NotRegister 32768 ∧ InvalidRaw 32776 ∧ NoCellInRegister sample 32769) := by decide
theorem witness_WmemWritesTheCell :
    (AddressIs sample 32772 32767 ∧ OperandIs sample 32773 40000) ∧ InvalidRaw 32776 ∧ NoCellInRegister sample 32769 ∧
    (AddressIs sample 0 0 ∧ InvalidRaw 32776) := by decide
theorem witness_OutEmitsOneCharacter :
    (OperandIs sample 32774 255 ∧ (255 : Word).toNat = (255 : Byte).toNat) ∧ InvalidRaw 32776 ∧
    (OperandIs sample 32775 256 ∧ 256 ≤ (256 : Word).toNat) := by decide
theorem witness_InTakesTheNextCharacter :
    (DestIs 32768 0 ∧ ({ sample with inbuf := [255, 0] } : State).inbuf = 255 :: [0]) ∧
    (DestIs 32775 7 ∧ sample.inbuf = [] ∧ ({ sample with input := [[97]] } : State).input = (97 :: []) :: []) ∧
    (¬ NotRegister 32768 ∧ sample.inbuf = [] ∧ ({ sample with input := [[], [1]] } : State).input = [] :: [[1]]) ∧
    (¬ NotRegister 32768 ∧ sample.inbuf = [] ∧ sample.input = [] ∧ sample.closeInput.inputClosed = true) ∧
    (¬ NotRegister 32775 ∧ sample.inbuf = [] ∧ sample.input = [] ∧ sample.inputClosed = false) ∧ NotRegister 32776 := by
  decide
theorem witness_ReadAfterWrite : (1 : Nat) ≠ 0 ∧ (32767 : Nat) ≠ 32766 := by decide
theorem witness_ResolveGivesLiteralOrRegister :
    (32767 : Word).toNat < 32768 ∧ (32775 : Word).toNat = 32768 + (7 : Fin 8).val ∧ 32776 ≤ (32776 : Word).toNat := by decide
theorem witness_ResolveAddressBoundsTheValue :
    (resolve sample 32772 = .ok 32767 ∧ (32767 : Word).toNat < 32768) ∧
    (resolve sample 32769 = .ok 32768 ∧ 32768 ≤ (32768 : Word).toNat) ∧ 32776 ≤ (32776 : Word).toNat ∧
    (32767 : Word).toNat < 32768 ∧ resolveAddress sample 32767 = .ok 32767 := by decide
theorem witness_DestNamesARegisterOrRaises :
    (32768 : Word).toNat = 32768 + (0 : Fin 8).val ∧ (32775 : Word).toNat = 32768 + (7 : Fin 8).val ∧
    ((32767 : Word).toNat < 32768 ∨ 32776 ≤ (32767 : Word).toNat) ∧ 32776 ≤ (32776 : Word).toNat ∧
    destOperand? (.pop 32767) = some 32767 ∧ destOperand? (.input 32776) = some 32776 := by decide
theorem witness_DecodeEncodeRoundTrip :
    Instr.wellFormed (.add 65535 40000 0) = true ∧ Instr.wellFormed (.unassigned22To23 22) = true ∧
    Instr.wellFormed (.unassigned32768To65535 65535) = true := by decide
theorem witness_EncodeInvertsDecode :
    arity 13 ≤ [(1 : Word), 2, 3].length ∧ [(1 : Word), 2].length < arity 13 ∧ arity 65535 ≤ ([] : List Word).length := by decide
theorem witness_ArityOfEveryOpcode :
    ((0 : Word).toNat = 0 ∧ 21 ≤ (65535 : Word).toNat) ∧ (20 : Word).toNat = 20 ∧ (16 : Word).toNat = 16 ∧
    (9 ≤ (13 : Word).toNat ∧ (13 : Word).toNat ≤ 13) := by decide
/-- `add` in the last four cells. -/
theorem witness_StepRunsTheDecodedInstruction :
    sample.status = .running ∧ Instr.wellFormed (.add 0 0 3) = true ∧
    sample.pc.toNat + (encode (.add 0 0 3)).length ≤ 32768 ∧
    ∀ k : Fin 4, sample.mem.read (sample.pc.toNat + k.val) = (encode (.add 0 0 3)).getD k.val 0 := by decide
theorem witness_StepHaltsAtTheEndOfTheStore :
    ({ sample with pc := 32768 } : State).status = .running ∧ 32768 ≤ ({ sample with pc := 32768 } : State).pc.toNat := by decide
theorem witness_StepAbortsOnATruncatedInstruction :
    State.status { sample with pc := 32765, mem := [(32765, 9)] } = .running ∧
    State.pc { sample with pc := 32765, mem := [(32765, 9)] } = 32765 ∧
    32768 < 32765 + 1 + arity (Memory.read [(32765, 9)] 32765) := by decide
theorem witness_StepIsEnabledExactlyWhenRunning :
    sample.status = .running ∧ sample.halt.status ≠ .running ∧ (sample.raise .invalidOperand).status ≠ .running := by decide
theorem witness_HaltedIsReachedInThreeWays :
    (State.reset.status = .running ∧ step State.reset = .next (State.reset.advance 1).halt ∧
      (State.reset.mem.read State.reset.pc.toNat).toNat = 0) ∧
    (step (program [22]) = .next ((program [22]).advance 1).halt ∧ 22 ≤ ((program [22]).mem.read 0).toNat) ∧
    (step { sample with pc := 32768 } = .next (State.halt { sample with pc := 32768 }) ∧ 32768 ≤ (32768 : Word).toNat) :=
  ⟨⟨rfl, rfl, rfl⟩, ⟨rfl, by decide⟩, rfl, by decide⟩
theorem witness_AbortingStepWritesNothingElse :
    (program [18]).status = .running ∧ step (program [18]) = .next ((program [18]).raise .stackUnderflow) ∧
    ((program [18]).raise .stackUnderflow).status = .aborted .stackUnderflow 0 := ⟨rfl, rfl, rfl⟩
/-- `wmem 32767, 18` makes the last cell a `ret`. -/
theorem witness_StoredWordIsFetchedNext :
    AddressIs sample 32772 32767 ∧ OperandIs sample 18 18 ∧
    exec (.wmem 32772 18) sample = .next ((sample.advance 3).writeCell 32767 18) ∧ 32767 + 1 + arity 18 ≤ 32768 ∧
    decode [18, sample.mem.read 32768, sample.mem.read 32769, sample.mem.read 32770] = .ok (.ret, [0, 0, 0]) :=
  ⟨by decide, by decide, rfl, by decide, by decide⟩
theorem witness_StepKeepsTheInvariant : Inv (program [21, 0]) ∧ step (program [21, 0]) = .next ((program [21, 0]).advance 1) :=
  ⟨⟨by decide, by decide, by decide⟩, rfl⟩
theorem witness_StartStatesMeetTheInvariant :
    loadPadded 0 [0x15, 0x00] = .ok (program [21]) ∧ loadPadded 0 [] = .ok State.reset := ⟨rfl, rfl⟩
theorem witness_RunsStayInTheInvariant : Reachable ((program [21]).advance 1) :=
  .step (s := program [21]) (.start (pad := 0) (image := [0x15, 0x00]) rfl) rfl
theorem witness_RegistersChangeOnlyThroughTheDestination :
    exec (.add 32768 1 2) sample = .next ((sample.advance 4).setReg 0 3) ∧
    ∀ a : Word, destOperand? (.add 32768 1 2) = some a → a.toNat ≠ 32768 + (1 : Fin 8).val :=
  ⟨rfl, fun _ h => by cases h; decide⟩
theorem witness_CellsChangeOnlyWhereWmemStores :
    exec (.wmem 0 2) sample = .next ((sample.advance 3).writeCell 0 2) ∧
    ∀ a b addr : Word, Instr.wmem 0 2 = .wmem a b → resolveAddress sample a = .ok addr → addr.toNat ≠ 32767 :=
  ⟨rfl, fun a b addr h h' => by
    cases h
    have e : resolveAddress sample 0 = .ok 0 := rfl
    rw [e] at h'; cases h'; decide⟩
theorem witness_StackChangesOnlyByPushPopCallRet :
    exec (.push 1) sample = .next ((sample.advance 2).stackPush 1) ∧
    exec .ret sample = .next (sample.stackDrop.jump 32767) ∧ exec .noop sample = .next (sample.advance 1) := ⟨rfl, rfl, rfl⟩
theorem witness_InputIsTakenOnlyByInInOrder :
    exec (.input 32768) { sample with inbuf := [7] } = .next ((sample.advance 2).setReg 0 7) ∧
    exec (.input 32768) sample = .next sample := ⟨rfl, rfl⟩
theorem witness_OutputGrowsOnlyByOut : exec (.out 255) sample = .next ((sample.advance 2).emit 255) := rfl
theorem witness_StatusChangesOnlyToATerminalOne :
    exec .halt sample = .next (sample.advance 1).halt ∧
    exec (.unassigned22To23 22) sample = .next (sample.advance 1).halt ∧
    exec .ret State.reset = .next (State.reset.raise .stackUnderflow) ∧
    exec .noop sample = .next (sample.advance 1) := ⟨rfl, rfl, rfl, rfl⟩
theorem witness_PcMovesPastTheWordsOrToACell :
    exec (.jmp 32767) sample = .next (sample.jump 32767) ∧ exec .noop sample = .next (sample.advance 1) ∧
    exec (.jmp 32776) sample = .next (sample.raise .invalidOperand) ∧ exec (.input 32768) sample = .next sample :=
  ⟨rfl, rfl, rfl, rfl⟩
theorem witness_LaterLinesDoNotChangeTheStep :
    ({ sample with inbuf := [7] } : State).inbuf ≠ [] ∨ ({ sample with inbuf := [7] } : State).input ≠ [] := by decide
theorem witness_SmallRegistersStaySmall :
    exec (.or 32768 32767 1) State.reset = .next ((State.reset.advance 4).setReg 0 32767) ∧
    (∀ j : Fin 8, (State.reset.x.get j).toNat < 32768) ∧
    (∀ (a v : Word) (below : List Word), Instr.or 32768 32767 1 = .pop a → State.reset.stack = below ++ [v] → v.toNat < 32768) ∧
    (∀ a b addr : Word, Instr.or 32768 32767 1 = .rmem a b → AddressIs State.reset b addr →
      (State.reset.mem.read addr.toNat).toNat < 32768) :=
  ⟨rfl, by decide, fun _ _ _ h => (by cases h), fun _ _ _ h => (by cases h)⟩
theorem witness_WritesOverrideAndCommute : Memory.wf [(0, 7), (32767, 65535)] = true ∧ 0 < 32768 ∧ 32767 < 32768 ∧ 0 ≠ 32767 := by
  decide
theorem witness_StoresThatReadAlikeAreEqual :
    Memory.wf [(32767, 1)] = true ∧ (Memory.write [] 32767 1).wf = true ∧
    ∀ n : Nat, n < 32768 → Memory.read [(32767, 1)] n = (Memory.write [] 32767 1).read n := by
  refine ⟨by decide, by decide, fun n _ => ?_⟩
  have e : Memory.write [] 32767 1 = [(32767, 1)] := by decide
  rw [e]
theorem witness_PopsReturnPushesInReverse :
    State.reset.status = .running ∧ DestIs 32775 7 ∧ (∀ v ∈ [(7 : Word), 8, 32767], v.toNat < 32768) ∧
    2 < [(7 : Word), 8, 32767].length := ⟨rfl, by decide, by simp, by decide⟩
theorem witness_FullFiniteStackOverflows :
    (2 ≤ sample.stack.length ∧ OperandIs sample 7 7 ∧ AddressIs sample 32767 32767) ∧ sample.stack.length < 3 := by decide
theorem witness_ImageLoadsLittleEndian : [(0x00 : Byte), 0x80].length = 2 * 1 ∧ 1 ≤ 32768 ∧ 0 < 1 ∧ 1 ≤ 32767 := by decide
theorem witness_BadImagesAreRefused :
    [(0x13 : Byte)].length % 2 = 1 ∧ (List.replicate 65538 (0 : Byte)).length % 2 = 0 ∧
    65536 < (List.replicate 65538 (0 : Byte)).length := by simp only [List.length_replicate]; decide
theorem witness_HostLiftsTheWait :
    DestIs 32768 0 ∧ (program [20, 32768]).status = .running ∧ (program [20, 32768]).pc.toNat + 2 ≤ 32768 ∧
    (program [20, 32768]).mem.read (program [20, 32768]).pc.toNat = 20 ∧
    (program [20, 32768]).mem.read ((program [20, 32768]).pc.toNat + 1) = 32768 ∧
    (program [20, 32768]).inbuf = [] ∧ (program [20, 32768]).input = [] ∧ (program [20, 32768]).inputClosed = false := by decide
theorem witness_TerminatorIsStrippedOnce :
    (∀ c : Byte, [(97 : Byte)].getLast? = some c → c ≠ 13) ∧ (∀ c : Byte, [(97 : Byte)].getLast? = some c → c ≠ 10) ∧
    (∀ c : Byte, ([] : List Byte).getLast? = some c → c ≠ 10) := by decide

end Sys2Proof.Tests
end

section
/-! The Program Store's read-after-write law (20_memory R32, R33). -/

namespace Sys2Proof.Machine

/-- Settles O51: both halves are instances of `Memory.read_write`, at the written cell and away from it. -/
theorem readAfterWrite : Obligations.ReadAfterWrite := by
  intro m addr v
  constructor
  · rw [Memory.read_write, if_pos rfl]
  · intro n hn
    rw [Memory.read_write, if_neg hn]

end Sys2Proof.Machine
end

section
/-! The Operand Resolver, the address resolver and the destination check (40_engine R75, R76, R77). -/

namespace Sys2Proof.Machine

/-- R23: every register is 0 at reset. -/
@[simp] theorem State.reset_x_get (i : Fin 8) : State.reset.x.get i = 0 := by
  simp [State.reset, Vector.get_eq_getElem]

/-- Settles O24: a register's content is read in any state, and at reset that content is 0. -/
theorem resolveGivesLiteralOrRegister : Obligations.ResolveGivesLiteralOrRegister := by
  intro s raw
  refine ⟨fun h => resolve_of_operandIs (.inl ⟨h, rfl⟩), fun i h => ⟨?_, ?_⟩, resolve_of_invalid⟩
  · exact resolve_of_operandIs (.inr ⟨i, h, rfl⟩)
  · exact resolve_of_operandIs (.inr ⟨i, h, (State.reset_x_get i).symm⟩)

/-- A resolved word is what the operand stands for. -/
theorem operandIs_of_resolve {s : State} {raw v : Word} (h : resolve s raw = .ok v) : OperandIs s raw v := by
  rcases resolve_cases s raw with ⟨w, hw, e⟩ | ⟨-, e⟩ <;> cases h.symm.trans e
  exact hw

/-- A word the address resolver answers is the cell the operand stands for. -/
theorem addressIs_of_resolveAddress {s : State} {raw t : Word} (h : resolveAddress s raw = .ok t) :
    AddressIs s raw t := by
  rcases resolveAddress_cases s raw with ⟨u, hu, e⟩ | ⟨-, e⟩ | ⟨-, e⟩ <;> cases h.symm.trans e
  exact hu

/-- Only a register's content can be too large for an address: a literal is below 32768 (R53). -/
theorem noCellInRegister_of_operandIs {s : State} {raw v : Word} (h : OperandIs s raw v) (hv : 32768 ≤ v.toNat) :
    NoCellInRegister s raw := by
  rcases h with ⟨hl, rfl⟩ | ⟨i, hi, rfl⟩
  · omega
  · exact ⟨i, hi, hv⟩

/-- Settles O25: what `resolve` answers decides between the cell and InvalidAddress, and a literal is its own cell. -/
theorem resolveAddressBoundsTheValue : Obligations.ResolveAddressBoundsTheValue := by
  intro s raw
  refine ⟨fun v hv hlt => ?cell, fun v hv hge => ?noCell, resolveAddress_of_invalid, fun h => ?literal,
    fun t ht => ?bound⟩
  case cell => exact resolveAddress_of_addressIs ⟨operandIs_of_resolve hv, hlt⟩
  case noCell => exact resolveAddress_of_noCell (noCellInRegister_of_operandIs (operandIs_of_resolve hv) hge)
  case literal => rw [resolveAddress_of_addressIs ⟨.inl ⟨h, rfl⟩, h⟩]; exact nofun
  case bound => exact Nat.le_of_lt_succ (addressIs_of_resolveAddress ht).2

/-- D6: an effect that begins with the destination check aborts there, whatever comes after. -/
theorem complete_dest_of_notRegister {raw : Word} (h : NotRegister raw) (s : State)
    (k : Fin 8 → Except Reason State) :
    complete s (dest raw >>= k) = .next (s.raise .invalidRegisterTarget) := by
  rw [dest_of_notRegister h]; rfl

/-- D16: `in` aborts on its destination before it asks for a character. -/
theorem execIn_of_notRegister {raw : Word} (h : NotRegister raw) (s : State) :
    execIn raw s = .next (s.raise .invalidRegisterTarget) := by
  rw [execIn, dest_of_notRegister h]

/-- R77, D6: every instruction with a destination operand makes the destination check first. -/
theorem aborts_of_destOperand {i : Instr} {raw : Word} (hd : destOperand? i = some raw) (h : NotRegister raw)
    (s : State) : Aborts i s .invalidRegisterTarget := by
  cases i <;> cases hd
  case input => exact execIn_of_notRegister h s
  all_goals exact complete_dest_of_notRegister h s _

/-- Settles O26, by the instructions' shared first step `aborts_of_destOperand`. -/
theorem destNamesARegisterOrRaises : Obligations.DestNamesARegisterOrRaises := by
  intro raw
  refine ⟨fun d => dest_of_destIs, fun h => ⟨dest_of_notRegister h, ?_⟩⟩
  intro i s hd
  exact aborts_of_destOperand hd h s

end Sys2Proof.Machine
end

section
/-! `halt`, `noop` and the unassigned opcodes (41_halt_noop R90, R91, R92). -/

namespace Sys2Proof.Machine

/-- R90, R92: what `halt` and every unassigned opcode do: the status and the pc, and nothing else. -/
theorem haltAfterOpcode_eq (s : State) :
    haltAfterOpcode s = .next { s with status := .halted, pc := s.pc + 1 } := rfl

/-- R92: an unassigned opcode word takes no operand word, so every word behind it is left. -/
theorem decode_of_unassigned {op : Word} (h : 22 ≤ op.toNat) (rest : List Word) :
    decode (op :: rest) = .ok (unassignedRow op, rest) := by
  simp [decode, Laws.arity_of_unassigned h, Laws.instrOf_of_unassigned h]

/-- R92: whichever row of the table an unassigned opcode word falls in, its meaning is that of `halt`. -/
theorem exec_unassignedRow (op : Word) (s : State) : exec (unassignedRow op) s = haltAfterOpcode s := by
  unfold unassignedRow
  iterate 12 refine of_choice (P := fun i => exec i s = haltAfterOpcode s) (fun _ => rfl) (fun _ => ?_)
  rfl

/-- Settles O3: the constructors share the effect `haltAfterOpcode`, and `unassignedRow op` is the instruction decoded. -/
theorem unassignedOpcodeHalts : Obligations.UnassignedOpcodeHalts := by
  intro op rest s
  iterate 13 refine ⟨haltAfterOpcode_eq s, ?_⟩
  intro h
  exact ⟨unassignedRow op, decode_of_unassigned h rest, wellFormed_unassignedRow h, encode_unassignedRow op,
    (exec_unassignedRow op s).trans (haltAfterOpcode_eq s)⟩

/-- R207: the host reads a halted state as success, whatever else it holds. -/
theorem State.signal_of_halted {s : State} (h : s.status = .halted) : s.signal = .success := by
  rw [State.signal, h]

/-- Settles O1: `halt` decodes by its round trip, and its effect is `haltAfterOpcode`. -/
theorem haltStopsAfterItsWord : Obligations.HaltStopsAfterItsWord := by
  intro s
  exact ⟨(Laws.EncodeRoundTrip.halt rfl).1, haltAfterOpcode_eq s, State.signal_of_halted rfl⟩

/-- R91: the effect of `noop` is the one-word advance of the pc. -/
theorem exec_noop (s : State) : exec .noop s = .next (s.advance 1) := rfl

/-- Settles O2: `noop` decodes by its round trip, and its effect is the advance of the pc past its one word. -/
theorem noopOnlyAdvancesThePc : Obligations.NoopOnlyAdvancesThePc := by
  intro s
  exact ⟨(Laws.EncodeRoundTrip.noop rfl).1, exec_noop s⟩

end Sys2Proof.Machine
end

section
/-! `set`, `push` and `pop` (42_set_stack R100, R101, R102). -/

namespace Sys2Proof.Machine

/-- R77: past a good destination check an effect goes on with the register named. -/
theorem complete_dest_of_destIs {raw : Word} {d : Fin 8} (h : DestIs raw d) (s : State)
    (k : Fin 8 → Except Reason State) : complete s (dest raw >>= k) = complete s (k d) := by
  rw [dest_of_destIs h]; rfl

/-- R75: past a valid src operand an effect goes on with the word it stands for. -/
theorem complete_resolve_of_operandIs {s : State} {raw v : Word} (h : OperandIs s raw v)
    (k : Word → Except Reason State) : complete s (resolve s raw >>= k) = complete s (k v) := by
  rw [resolve_of_operandIs h]; rfl

/-- R191, D6: an effect that comes to an invalid src operand aborts there, whatever comes after. -/
theorem complete_resolve_of_invalid {raw : Word} (h : InvalidRaw raw) (s : State)
    (k : Word → Except Reason State) :
    complete s (resolve s raw >>= k) = .next (s.raise .invalidOperand) := by
  rw [resolve_of_invalid h]; rfl

/-- R15: the stack without its top word is what lies below. -/
theorem State.stackDrop_of_append {s : State} {below : List Word} {w : Word} (h : s.stack = below ++ [w]) :
    s.stackDrop = { s with stack := below } := by
  simp [State.stackDrop, h]

theorem exec_set_of_operandIs {a b v : Word} {s : State} {d : Fin 8} (ha : DestIs a d) (hb : OperandIs s b v) :
    exec (.set a b) s = .next ((s.advance 3).setReg d v) := by
  rw [exec, execSet, complete_dest_of_destIs ha, complete_resolve_of_operandIs hb]; rfl

/-- R100, R204: the second check of `set`. -/
theorem exec_set_of_invalid {a b : Word} {d : Fin 8} (ha : DestIs a d) (hb : InvalidRaw b) (s : State) :
    exec (.set a b) s = .next (s.raise .invalidOperand) := by
  rw [exec, execSet, complete_dest_of_destIs ha, complete_resolve_of_invalid hb]

/-- Settles O4, by the operand checks in their order: the destination, then the source. -/
theorem setMovesTheWholeWord : Obligations.SetMovesTheWholeWord := by
  intro a b s
  refine ⟨(Laws.EncodeRoundTrip.set a b rfl).1, fun d v => exec_set_of_operandIs, fun ha => ?noRegister,
    fun ha hb => ?invalidSource⟩
  case noRegister => exact aborts_of_destOperand rfl ha s
  case invalidSource =>
    obtain ⟨d, hd⟩ := destIs_of_not_notRegister ha
    exact exec_set_of_invalid hd hb s

/-- R16, R101: an unbounded stack takes the word at every depth. -/
theorem exec_push_of_operandIs {a v : Word} {s : State} (h : OperandIs s a v) :
    exec (.push a) s = .next ((s.advance 2).stackPush v) := by
  rw [exec, execPush, pushWithin, complete_resolve_of_operandIs h]; rfl

theorem exec_push_of_invalid {a : Word} (h : InvalidRaw a) (s : State) :
    exec (.push a) s = .next (s.raise .invalidOperand) :=
  complete_resolve_of_invalid h s _

/-- Settles O5: a valid operand is pushed (`exec_push_of_operandIs`), an invalid one is the only abort. -/
theorem pushAppendsTheResolvedWord : Obligations.PushAppendsTheResolvedWord := by
  intro a s
  exact ⟨(Laws.EncodeRoundTrip.push a rfl).1, fun v => exec_push_of_operandIs, fun ha => exec_push_of_invalid ha s⟩

theorem exec_pop_of_append {a v : Word} {s : State} {d : Fin 8} {below : List Word} (ha : DestIs a d)
    (hs : s.stack = below ++ [v]) : exec (.pop a) s = .next ((s.advance 2).stackDrop.setReg d v) := by
  rw [exec, execPop, complete_dest_of_destIs ha, stackTop?_of_append hs]; rfl

/-- R194, D6: `pop` looks at the stack only when its destination is good. -/
theorem exec_pop_of_empty {a : Word} {s : State} {d : Fin 8} (ha : DestIs a d) (hs : s.stack = []) :
    exec (.pop a) s = .next (s.raise .stackUnderflow) := by
  rw [exec, execPop, complete_dest_of_destIs ha, stackTop?_of_empty hs]; rfl

/-- Settles O6: the destination is checked first, then the stack has a top word or is empty. -/
theorem popMovesTheTopToTheRegister : Obligations.PopMovesTheTopToTheRegister := by
  intro a s
  refine ⟨(Laws.EncodeRoundTrip.pop a rfl).1, fun d below v ha hs => ?popped, fun ha => ?noRegister,
    fun ha hs => ?underflow⟩
  case popped =>
    have hs' : (s.advance 2).stack = below ++ [v] := hs
    rw [exec_pop_of_append ha hs, State.stackDrop_of_append hs']
    rfl
  case noRegister => exact aborts_of_destOperand rfl ha s
  case underflow =>
    obtain ⟨d, hd⟩ := destIs_of_not_notRegister ha
    exact exec_pop_of_empty hd hs

end Sys2Proof.Machine
end

section
/-! `eq` and `gt` (43_compare R110, R111). -/

namespace Sys2Proof.Machine

/-- R110: all 16 bits agree exactly when the unsigned numbers do. -/
theorem eqResult_eq_ite (vb vc : Word) : eqResult vb vc = if vb.toNat = vc.toNat then 1 else 0 := by
  simp only [eqResult, truthWord, decide_eq_true_eq, BitVec.toNat_inj]

theorem gtResult_eq_ite (vb vc : Word) : gtResult vb vc = if vb.toNat > vc.toNat then 1 else 0 := by
  simp only [gtResult, truthWord, decide_eq_true_eq, gt_iff_lt]

theorem exec_eq_of_operandIs {a b c vb vc : Word} {s : State} {d : Fin 8} (ha : DestIs a d) (hb : OperandIs s b vb)
    (hc : OperandIs s c vc) :
    exec (.eq a b c) s = .next ((s.advance 4).setReg d (if vb.toNat = vc.toNat then 1 else 0)) := by
  rw [exec, execEq, destSrcSrc_ok ha hb hc, eqResult_eq_ite]

theorem exec_gt_of_operandIs {a b c vb vc : Word} {s : State} {d : Fin 8} (ha : DestIs a d) (hb : OperandIs s b vb)
    (hc : OperandIs s c vc) :
    exec (.gt a b c) s = .next ((s.advance 4).setReg d (if vb.toNat > vc.toNat then 1 else 0)) := by
  rw [exec, execGt, destSrcSrc_ok ha hb hc, gtResult_eq_ite]

/-- Settles O7: `eq` decodes by its round trip; its checks are those of `destSrcSrc`, its result is `eqResult`. -/
theorem eqWritesOneWhenEqual : Obligations.EqWritesOneWhenEqual := by
  intro a b c s
  exact ⟨(Laws.EncodeRoundTrip.eq a b c rfl).1, fun _ _ _ => exec_eq_of_operandIs, destSrcSrc_aborts⟩

/-- Settles O8: `gt` decodes by its round trip; its checks are those of `destSrcSrc`, its result is `gtResult`. -/
theorem gtWritesOneWhenGreater : Obligations.GtWritesOneWhenGreater := by
  intro a b c s
  exact ⟨(Laws.EncodeRoundTrip.gt a b c rfl).1, fun _ _ _ => exec_gt_of_operandIs, destSrcSrc_aborts⟩

end Sys2Proof.Machine
end

section
/-! `jmp`, `jt`, `jf`, `call` and `ret` (44_jumps_calls R120 to R130). -/

namespace Sys2Proof.Machine

/-- R76: past a valid addr operand an effect goes on with the cell it stands for. -/
theorem complete_resolveAddress_of_addressIs {s : State} {raw t : Word} (h : AddressIs s raw t)
    (k : Word → Except Reason State) : complete s (resolveAddress s raw >>= k) = complete s (k t) := by
  rw [resolveAddress_of_addressIs h]; rfl

/-- R204, D6: an effect that comes to a bad addr operand aborts there, whatever comes after. -/
theorem addrAborts_of_exec_eq {i : Instr} {raw : Word} {s : State} {k : Word → Except Reason State}
    (hi : exec i s = complete s (resolveAddress s raw >>= k)) : AddrAborts i raw s := by
  refine ⟨fun h => ?invalid, fun h => ?noCell⟩
  case invalid => rw [Aborts, hi, resolveAddress_of_invalid h]; rfl
  case noCell => rw [Aborts, hi, resolveAddress_of_noCell h]; rfl

/-- Settles O9: the effect of `jmp` begins with the address check, and goes on with the jump. -/
theorem jmpSetsThePc : Obligations.JmpSetsThePc := by
  intro a s
  refine ⟨(Laws.EncodeRoundTrip.jmp a rfl).1, fun t ha => ?jumped, addrAborts_of_exec_eq rfl⟩
  rw [exec, execJmp, complete_resolveAddress_of_addressIs ha]; rfl

/-- R121, R122: an invalid `a` aborts whatever the test is. -/
theorem jumpWhen_of_invalid {a : Word} (h : InvalidRaw a) (taken : Word → Bool) (b : Word) (s : State) :
    jumpWhen taken a b s = .next (s.raise .invalidOperand) :=
  complete_resolve_of_invalid h s _

/-- R57: a jump that is not taken does not look at `b`. -/
theorem jumpWhen_of_notTaken {taken : Word → Bool} {a va : Word} {s : State} (ha : OperandIs s a va)
    (hv : taken va = false) (b : Word) : jumpWhen taken a b s = .next (s.advance 3) := by
  rw [jumpWhen, complete_resolve_of_operandIs ha, hv]; rfl

/-- R121, R122: a jump that is taken is the `jmp` through `b`. -/
theorem jumpWhen_of_taken {taken : Word → Bool} {a va : Word} {s : State} (ha : OperandIs s a va)
    (hv : taken va = true) (b : Word) : jumpWhen taken a b s = execJmp b s := by
  rw [jumpWhen, complete_resolve_of_operandIs ha, hv]; rfl

theorem nonZero_eq_true_iff (v : Word) : nonZero v = true ↔ v.toNat ≠ 0 := by
  rw [nonZero, decide_eq_true_iff, ne_eq, ← BitVec.toNat_inj]; rfl

theorem nonZero_eq_false_iff (v : Word) : nonZero v = false ↔ v.toNat = 0 := by
  rw [← Bool.not_eq_true, nonZero_eq_true_iff, not_not]

theorem exec_jt_of_ne_zero {a va : Word} {s : State} (ha : OperandIs s a va) (hv : va.toNat ≠ 0) (b : Word) :
    exec (.jt a b) s = exec (.jmp b) s :=
  jumpWhen_of_taken ha ((nonZero_eq_true_iff va).2 hv) b

theorem exec_jt_of_eq_zero {a va : Word} {s : State} (ha : OperandIs s a va) (hv : va.toNat = 0) (b : Word) :
    exec (.jt a b) s = .next (s.advance 3) :=
  jumpWhen_of_notTaken ha ((nonZero_eq_false_iff va).2 hv) b

theorem exec_jf_of_eq_zero {a va : Word} {s : State} (ha : OperandIs s a va) (hv : va.toNat = 0) (b : Word) :
    exec (.jf a b) s = exec (.jmp b) s :=
  jumpWhen_of_taken ha (by rw [(nonZero_eq_false_iff va).2 hv]; rfl) b

theorem exec_jf_of_ne_zero {a va : Word} {s : State} (ha : OperandIs s a va) (hv : va.toNat ≠ 0) (b : Word) :
    exec (.jf a b) s = .next (s.advance 3) :=
  jumpWhen_of_notTaken ha (by rw [(nonZero_eq_true_iff va).2 hv]; rfl) b

/-- Settles O10: a taken `jt` is `jmp b` in its effect and in its aborts; one not taken only advances the pc. -/
theorem jtJumpsOnNonzero : Obligations.JtJumpsOnNonzero := by
  intro a b s
  obtain ⟨-, hjump, -⟩ := jmpSetsThePc b s
  refine ⟨(Laws.EncodeRoundTrip.jt a b rfl).1, fun va t ha hv hb => ?taken, fun va => exec_jt_of_eq_zero (b := b),
    fun ha => jumpWhen_of_invalid ha nonZero b s, fun va ha hv => ?badTarget⟩
  case taken => rw [exec_jt_of_ne_zero ha hv, hjump t hb]
  case badTarget => exact addrAborts_of_exec_eq (exec_jt_of_ne_zero ha hv b)

/-- Settles O11: a taken `jf` is `jmp b` in its effect and in its aborts; one not taken only advances the pc. -/
theorem jfJumpsOnZero : Obligations.JfJumpsOnZero := by
  intro a b s
  obtain ⟨-, hjump, -⟩ := jmpSetsThePc b s
  refine ⟨(Laws.EncodeRoundTrip.jf a b rfl).1, fun va t ha hv hb => ?taken, fun va => exec_jf_of_ne_zero (b := b),
    fun ha => jumpWhen_of_invalid ha (fun v => !nonZero v) b s, fun va ha hv => ?badTarget⟩
  case taken => rw [exec_jf_of_eq_zero ha hv, hjump t hb]
  case badTarget => exact addrAborts_of_exec_eq (exec_jf_of_eq_zero ha hv b)

/-- R16, R127: an unbounded stack takes the return address at every depth. -/
theorem exec_call_of_addressIs {a t : Word} {s : State} (h : AddressIs s a t) :
    exec (.call a) s = .next (((s.advance 2).stackPush (s.pc + 2)).jump t) := by
  rw [exec, execCall, callWithin, complete_resolveAddress_of_addressIs h]; rfl

/-- Settles O12: the effect of `call` begins with the address check, and goes on with the push and the jump. -/
theorem callPushesTheReturnAddress : Obligations.CallPushesTheReturnAddress := by
  intro a s
  exact ⟨(Laws.EncodeRoundTrip.call a rfl).1, fun t => exec_call_of_addressIs, addrAborts_of_exec_eq rfl⟩

theorem exec_ret_of_empty {s : State} (hs : s.stack = []) : exec .ret s = .next (s.raise .stackUnderflow) := by
  rw [exec, execRet, stackTop?_of_empty hs]; rfl

/-- R128: with a word on top of the stack the effect of `ret` begins with that word's address check. -/
theorem exec_ret_of_append {s : State} {below : List Word} {w : Word} (hs : s.stack = below ++ [w]) :
    exec .ret s = complete s (resolveAddress s w >>= fun t => .ok (s.stackDrop.jump t)) := by
  rw [exec, execRet, stackTop?_of_append hs]; rfl

/-- Settles O13: the stack is empty or has a top word, and a top word is an addr operand. -/
theorem retResolvesTheTopWord : Obligations.RetResolvesTheTopWord := by
  intro s
  refine ⟨(Laws.EncodeRoundTrip.ret rfl).1, fun below w t hs hw => ?returned, exec_ret_of_empty,
    fun below w hs => addrAborts_of_exec_eq (exec_ret_of_append hs)⟩
  rw [exec_ret_of_append hs, complete_resolveAddress_of_addressIs hw, State.stackDrop_of_append hs]; rfl

end Sys2Proof.Machine
end

section
/-! `add`, `mult`, `mod`, `and`, `or` and `not` (45_arith_logic R140 to R147). -/

namespace Sys2Proof.Machine

/-! The results of the family, as the spec describes them. -/

/-- R142: `modResult` is the remainder of the division equation, which 16 bits always hold. -/
theorem modResult_eq_of_division {vb vc r : Word} {q : Nat} (hr : r.toNat < vc.toNat)
    (hq : vb.toNat = q * vc.toNat + r.toNat) : modResult vb vc = r := by
  rw [modResult, hq, Nat.mul_add_mod_of_lt hr, BitVec.ofNat_toNat, BitVec.setWidth_eq]

theorem andResult_getLsbD (vb vc : Word) (k : Nat) :
    (andResult vb vc).getLsbD k = (vb.getLsbD k && vc.getLsbD k) :=
  BitVec.getLsbD_and

theorem orResult_getLsbD (vb vc : Word) (k : Nat) :
    (orResult vb vc).getLsbD k = (vb.getLsbD k || vc.getLsbD k) :=
  BitVec.getLsbD_or

/-- R5: the mask keeps bits 14 to 0. -/
theorem complementMask_getLsbD (k : Nat) : Config.complementMask.getLsbD k = decide (k < 15) := by
  have hmask : Config.complementMask.toNat = 2 ^ 15 - 1 := by decide
  rw [BitVec.getLsbD, hmask, Nat.testBit_two_pow_sub_one]

theorem notResult_getLsbD_of_lt {k : Nat} (hk : k < 15) (vb : Word) :
    (notResult vb).getLsbD k = !vb.getLsbD k := by
  simp [notResult, complementMask_getLsbD, hk, Nat.lt_succ_of_lt hk]

theorem notResult_getLsbD_fifteen (vb : Word) : (notResult vb).getLsbD 15 = false := by
  rw [notResult, BitVec.getLsbD_and, complementMask_getLsbD, decide_eq_false (lt_irrefl 15), Bool.and_false]

/-- R145: bits 14 to 0 and bit 15 are all the bits of a word. -/
theorem eq_notResult_of_getLsbD {vb r : Word} (hlow : ∀ k : Nat, k < 15 → r.getLsbD k = !vb.getLsbD k)
    (htop : r.getLsbD 15 = false) : r = notResult vb := by
  refine BitVec.eq_of_getLsbD_eq fun k hk => ?_
  rcases Nat.lt_succ_iff_lt_or_eq.1 hk with hk | rfl
  · rw [hlow k hk, notResult_getLsbD_of_lt hk]
  · rw [htop, notResult_getLsbD_fifteen]

/-! The operand checks of an effect, whatever it goes on to do. -/

/-- R53: an operand that stands for a value is not an invalid word. -/
theorem not_invalidRaw_of_operandIs {s : State} {raw v : Word} (h : OperandIs s raw v) : ¬ InvalidRaw raw := by
  rcases h with ⟨hl, -⟩ | ⟨i, hi, -⟩ <;> omega

/-- R204, D6: an effect that begins with the checks `dest a, src b` aborts in that order. -/
theorem destSrcAborts_of_exec_eq {i : Instr} {a b : Word} {s : State} {k : Fin 8 → Word → Except Reason State}
    (hi : exec i s = complete s (dest a >>= fun d => resolve s b >>= k d)) : DestSrcAborts i a b s := by
  refine ⟨fun ha => ?noRegister, fun ha hb => ?invalidSource⟩
  case noRegister => exact hi.trans (complete_dest_of_notRegister ha s _)
  case invalidSource =>
    obtain ⟨d, hd⟩ := destIs_of_not_notRegister ha
    exact hi.trans ((complete_dest_of_destIs hd s _).trans (complete_resolve_of_invalid hb s _))

/-- R204, D6: an effect that begins with the checks `dest a, src b, src c` aborts in that order. -/
theorem destSrcSrcAborts_of_exec_eq {i : Instr} {a b c : Word} {s : State}
    {k : Fin 8 → Word → Word → Except Reason State}
    (hi : exec i s = complete s (dest a >>= fun d => resolve s b >>= fun vb => resolve s c >>= k d vb)) :
    DestSrcSrcAborts i a b c s := by
  obtain ⟨noRegister, invalidB⟩ := destSrcAborts_of_exec_eq hi
  refine ⟨noRegister, fun ha hbc => ?_⟩
  obtain ⟨d, hd⟩ := destIs_of_not_notRegister ha
  rcases resolve_cases s b with ⟨vb, hb, -⟩ | ⟨hb, -⟩
  · have hc : InvalidRaw c := hbc.resolve_left (not_invalidRaw_of_operandIs hb)
    rw [Aborts, hi, complete_dest_of_destIs hd, complete_resolve_of_operandIs hb]
    exact complete_resolve_of_invalid hc s _
  · exact invalidB ha hb

/-! The instructions. -/

/-- Settles O14: `add` decodes by its round trip; its checks are those of `destSrcSrc`, its result is `addResult`. -/
theorem addWritesTheSumModulo32768 : Obligations.AddWritesTheSumModulo32768 := by
  intro a b c s
  exact ⟨(Laws.EncodeRoundTrip.add a b c rfl).1, fun _ _ _ => destSrcSrc_ok, destSrcSrc_aborts⟩

/-- Settles O15: `mult` decodes by its round trip; its checks are those of `destSrcSrc`, its result is `multResult`. -/
theorem multWritesTheProductModulo32768 : Obligations.MultWritesTheProductModulo32768 := by
  intro a b c s
  exact ⟨(Laws.EncodeRoundTrip.mult a b c rfl).1, fun _ _ _ => destSrcSrc_ok, destSrcSrc_aborts⟩

/-- R142: past its operand checks `mod` makes its own check of the divisor. -/
theorem exec_mod_of_operandIs {a b c vb vc : Word} {s : State} {d : Fin 8} (ha : DestIs a d)
    (hb : OperandIs s b vb) (hc : OperandIs s c vc) :
    exec (.mod a b c) s = complete s (check (!nonZero vc) .arithmeticError >>= fun _ =>
      .ok ((s.advance 4).setReg d (modResult vb vc))) := by
  rw [exec, execMod, complete_dest_of_destIs ha, complete_resolve_of_operandIs hb,
    complete_resolve_of_operandIs hc]
  rfl

theorem exec_mod_of_ne_zero {a b c vb vc : Word} {s : State} {d : Fin 8} (ha : DestIs a d)
    (hb : OperandIs s b vb) (hc : OperandIs s c vc) (hv : vc.toNat ≠ 0) :
    exec (.mod a b c) s = .next ((s.advance 4).setReg d (modResult vb vc)) := by
  rw [exec_mod_of_operandIs ha hb hc, (nonZero_eq_true_iff vc).2 hv]; rfl

/-- D9: division by 0 is fatal. -/
theorem exec_mod_of_eq_zero {a b c vb vc : Word} {s : State} {d : Fin 8} (ha : DestIs a d)
    (hb : OperandIs s b vb) (hc : OperandIs s c vc) (hv : vc.toNat = 0) :
    exec (.mod a b c) s = .next (s.raise .arithmeticError) := by
  rw [exec_mod_of_operandIs ha hb hc, (nonZero_eq_false_iff vc).2 hv]; rfl

/-- Settles O16: a remainder below the divisor makes the divisor nonzero, and the division equation determines it. -/
theorem modWritesTheUnsignedRemainder : Obligations.ModWritesTheUnsignedRemainder := by
  intro a b c s
  refine ⟨(Laws.EncodeRoundTrip.mod a b c rfl).1, fun d vb vc r q ha hb hc hr hq => ?remainder,
    fun _ _ _ => exec_mod_of_eq_zero, destSrcSrcAborts_of_exec_eq rfl⟩
  have hv : vc.toNat ≠ 0 := Nat.ne_zero_of_lt hr
  rw [exec_mod_of_ne_zero ha hb hc hv, modResult_eq_of_division hr hq]; rfl

/-- Settles O17: a word with the bits of `andResult` is `andResult`, the result of `and`; its checks are those of
`destSrcSrc`. -/
theorem andWritesTheBitwiseAnd : Obligations.AndWritesTheBitwiseAnd := by
  intro a b c s
  refine ⟨(Laws.EncodeRoundTrip.and a b c rfl).1, fun d vb vc r ha hb hc hbits => ?written, destSrcSrc_aborts⟩
  have hr : r = andResult vb vc :=
    BitVec.eq_of_getLsbD_eq fun k hk => (hbits k hk).trans (andResult_getLsbD vb vc k).symm
  rw [exec, execAnd, destSrcSrc_ok ha hb hc, hr]; rfl

/-- Settles O18: a word with the bits of `orResult` is `orResult`, the result of `or`; its checks are those of
`destSrcSrc`. -/
theorem orWritesTheBitwiseOr : Obligations.OrWritesTheBitwiseOr := by
  intro a b c s
  refine ⟨(Laws.EncodeRoundTrip.or a b c rfl).1, fun d vb vc r ha hb hc hbits => ?written, destSrcSrc_aborts⟩
  have hr : r = orResult vb vc :=
    BitVec.eq_of_getLsbD_eq fun k hk => (hbits k hk).trans (orResult_getLsbD vb vc k).symm
  rw [exec, execOr, destSrcSrc_ok ha hb hc, hr]; rfl

theorem exec_not_of_operandIs {a b vb : Word} {s : State} {d : Fin 8} (ha : DestIs a d) (hb : OperandIs s b vb) :
    exec (.not a b) s = .next ((s.advance 3).setReg d (notResult vb)) := by
  rw [exec, execNot, complete_dest_of_destIs ha, complete_resolve_of_operandIs hb]; rfl

/-- Settles O19: the 16 bits given are those of `notResult`; the effect begins with the checks of `a` and `b`. -/
theorem notWritesTheFifteenBitComplement : Obligations.NotWritesTheFifteenBitComplement := by
  intro a b s
  refine ⟨(Laws.EncodeRoundTrip.not a b rfl).1, fun d vb r ha hb hlow htop => ?written,
    destSrcAborts_of_exec_eq rfl⟩
  rw [exec_not_of_operandIs ha hb, eq_notResult_of_getLsbD hlow htop]; rfl

end Sys2Proof.Machine
end

section
/-! `rmem` and `wmem` (46_memory_access R160, R161). -/

namespace Sys2Proof.Machine

theorem exec_rmem_of_addressIs {a b addr : Word} {s : State} {d : Fin 8} (ha : DestIs a d)
    (hb : AddressIs s b addr) : exec (.rmem a b) s = .next ((s.advance 3).setReg d (s.readCell addr)) := by
  rw [exec, execRmem, complete_dest_of_destIs ha, complete_resolveAddress_of_addressIs hb]; rfl

/-- R160, D6: past a good destination the effect of `rmem` begins with the address check. -/
theorem rmem_addrAborts {a : Word} {d : Fin 8} (ha : DestIs a d) (b : Word) (s : State) :
    AddrAborts (.rmem a b) b s :=
  addrAborts_of_exec_eq (complete_dest_of_destIs ha s _)

/-- Settles O20, by the operand checks in their order: the destination, then the address. -/
theorem rmemReadsTheCell : Obligations.RmemReadsTheCell := by
  intro a b s
  refine ⟨(Laws.EncodeRoundTrip.rmem a b rfl).1, fun d addr => exec_rmem_of_addressIs, fun ha => ?noRegister,
    fun ha => ?badAddress⟩
  case noRegister => exact aborts_of_destOperand rfl ha s
  case badAddress =>
    obtain ⟨d, hd⟩ := destIs_of_not_notRegister ha
    exact rmem_addrAborts hd b s

theorem exec_wmem_of_operandIs {a b addr v : Word} {s : State} (ha : AddressIs s a addr) (hb : OperandIs s b v) :
    exec (.wmem a b) s = .next ((s.advance 3).writeCell addr v) := by
  rw [exec, execWmem, complete_resolveAddress_of_addressIs ha, complete_resolve_of_operandIs hb]; rfl

/-- R161, D6: `wmem` looks at its value only when its address is good. -/
theorem exec_wmem_of_invalid {a b addr : Word} {s : State} (ha : AddressIs s a addr) (hb : InvalidRaw b) :
    exec (.wmem a b) s = .next (s.raise .invalidOperand) := by
  rw [exec, execWmem, complete_resolveAddress_of_addressIs ha, complete_resolve_of_invalid hb]

/-- Settles O21: the new store is the old one written at the addressed cell, and `readAfterWrite` says what it reads. -/
theorem wmemWritesTheCell : Obligations.WmemWritesTheCell := by
  intro a b s
  refine ⟨(Laws.EncodeRoundTrip.wmem a b rfl).1, fun addr v ha hb => ?written, addrAborts_of_exec_eq rfl,
    fun addr => exec_wmem_of_invalid⟩
  obtain ⟨atCell, elsewhere⟩ := readAfterWrite s.mem addr.toNat v
  exact ⟨s.mem.write addr.toNat v, exec_wmem_of_operandIs ha hb, atCell, elsewhere⟩

end Sys2Proof.Machine
end

section
/-! `out` (47_char_io R170, R172). -/

namespace Sys2Proof.Machine

/-- R172: the character emitted for a word that is a character's code is that character. -/
theorem setWidth_eq_of_toNat_eq {v : Word} {ch : Byte} (h : v.toNat = ch.toNat) : v.setWidth 8 = ch :=
  BitVec.eq_of_toNat_eq (by rw [BitVec.toNat_setWidth, h, Nat.mod_eq_of_lt ch.isLt])

/-- R170: past its operand check `out` makes its own check that the value is a character's code. -/
theorem exec_out_of_operandIs {a v : Word} {s : State} (h : OperandIs s a v) :
    exec (.out a) s = complete s (check (decide (Config.outLimit ≤ v.toNat)) .invalidOutputValue >>= fun _ =>
      .ok ((s.advance 2).emit (v.setWidth 8))) := by
  rw [exec, execOut, complete_resolve_of_operandIs h]; rfl

theorem exec_out_of_lt {a v : Word} {s : State} (h : OperandIs s a v) (hv : v.toNat < Config.outLimit) :
    exec (.out a) s = .next ((s.advance 2).emit (v.setWidth 8)) := by
  rw [exec_out_of_operandIs h, decide_eq_false (Nat.not_le.2 hv)]; rfl

theorem exec_out_of_le {a v : Word} {s : State} (h : OperandIs s a v) (hv : Config.outLimit ≤ v.toNat) :
    exec (.out a) s = .next (s.raise .invalidOutputValue) := by
  rw [exec_out_of_operandIs h, decide_eq_true hv]; rfl

/-- Settles O22: the operand check comes first, then the value is a character's code, so below 256, or it is not. -/
theorem outEmitsOneCharacter : Obligations.OutEmitsOneCharacter := by
  intro a s
  refine ⟨(Laws.EncodeRoundTrip.out a rfl).1, fun v ch ha hch => ?emitted,
    fun ha => complete_resolve_of_invalid ha s _, fun v => exec_out_of_le⟩
  have hv : v.toNat < Config.outLimit := hch ▸ ch.isLt
  rw [exec_out_of_lt ha hv, setWidth_eq_of_toNat_eq hch]; rfl

end Sys2Proof.Machine
end

section
/-! The encoding (30_encoding R50, R51, R55; 40_engine R73). -/

namespace Sys2Proof.Machine

/-- R51, R55: the words of a well-formed instruction decode to it, and its opcode word declares their number. -/
theorem encodeRoundTrip (i : Instr) : Laws.EncodeRoundTrip.Statement i := by
  cases i with
  | halt => exact Laws.EncodeRoundTrip.halt
  | set a b => exact Laws.EncodeRoundTrip.set a b
  | push a => exact Laws.EncodeRoundTrip.push a
  | pop a => exact Laws.EncodeRoundTrip.pop a
  | eq a b c => exact Laws.EncodeRoundTrip.eq a b c
  | gt a b c => exact Laws.EncodeRoundTrip.gt a b c
  | jmp a => exact Laws.EncodeRoundTrip.jmp a
  | jt a b => exact Laws.EncodeRoundTrip.jt a b
  | jf a b => exact Laws.EncodeRoundTrip.jf a b
  | add a b c => exact Laws.EncodeRoundTrip.add a b c
  | mult a b c => exact Laws.EncodeRoundTrip.mult a b c
  | mod a b c => exact Laws.EncodeRoundTrip.mod a b c
  | and a b c => exact Laws.EncodeRoundTrip.and a b c
  | or a b c => exact Laws.EncodeRoundTrip.or a b c
  | not a b => exact Laws.EncodeRoundTrip.not a b
  | rmem a b => exact Laws.EncodeRoundTrip.rmem a b
  | wmem a b => exact Laws.EncodeRoundTrip.wmem a b
  | call a => exact Laws.EncodeRoundTrip.call a
  | ret => exact Laws.EncodeRoundTrip.ret
  | out a => exact Laws.EncodeRoundTrip.out a
  | input a => exact Laws.EncodeRoundTrip.input a
  | noop => exact Laws.EncodeRoundTrip.noop
  | unassigned22To23 op => exact Laws.EncodeRoundTrip.unassigned22To23 op
  | unassigned24To31 op => exact Laws.EncodeRoundTrip.unassigned24To31 op
  | unassigned32To63 op => exact Laws.EncodeRoundTrip.unassigned32To63 op
  | unassigned64To127 op => exact Laws.EncodeRoundTrip.unassigned64To127 op
  | unassigned128To255 op => exact Laws.EncodeRoundTrip.unassigned128To255 op
  | unassigned256To511 op => exact Laws.EncodeRoundTrip.unassigned256To511 op
  | unassigned512To1023 op => exact Laws.EncodeRoundTrip.unassigned512To1023 op
  | unassigned1024To2047 op => exact Laws.EncodeRoundTrip.unassigned1024To2047 op
  | unassigned2048To4095 op => exact Laws.EncodeRoundTrip.unassigned2048To4095 op
  | unassigned4096To8191 op => exact Laws.EncodeRoundTrip.unassigned4096To8191 op
  | unassigned8192To16383 op => exact Laws.EncodeRoundTrip.unassigned8192To16383 op
  | unassigned16384To32767 op => exact Laws.EncodeRoundTrip.unassigned16384To32767 op
  | unassigned32768To65535 op => exact Laws.EncodeRoundTrip.unassigned32768To65535 op

/-- R55: no two well-formed instructions share their words. -/
theorem encode_injective {i j : Instr} (hi : i.wellFormed = true) (hj : j.wellFormed = true)
    (h : encode i = encode j) : i = j := by
  have e := (encodeRoundTrip i hi).1
  rw [h, (encodeRoundTrip j hj).1] at e
  cases e; rfl

/-- R50: an opcode word stands first, and as many words as it declares follow it. -/
theorem encode_eq_cons {i : Instr} (hi : i.wellFormed = true) :
    ∃ op operands, encode i = op :: operands ∧ operands.length = arity op := by
  obtain ⟨hd, hl⟩ := encodeRoundTrip i hi
  cases hw : encode i with
  | nil => rw [hw] at hd; cases hd
  | cons op operands =>
    rw [hw, List.length_cons, List.headD_cons] at hl
    exact ⟨op, operands, rfl, by omega⟩

/-- R73: the three operand words the decoder looks at begin with the declared ones. -/
theorem take_getD_eq_take {ws : List Word} {n : Nat} (hn : n ≤ ws.length) (h3 : n ≤ 3) :
    [ws.getD 0 0, ws.getD 1 0, ws.getD 2 0].take n = ws.take n := by
  refine List.ext_getElem (by simp; omega) fun k hk _ => ?_
  have hkn : k < n := by rw [List.length_take] at hk; omega
  rw [List.getElem_take, List.getElem_take, ← List.getD_eq_getElem ws 0 (hkn.trans_le hn)]
  have : k = 0 ∨ k = 1 ∨ k = 2 := by omega
  rcases this with rfl | rfl | rfl <;> rfl

/-- Settles O28: the instruction decoded is `instrOf` of the opcode word, which `encode_instrOf` turns back. -/
theorem encodeInvertsDecode : Obligations.EncodeInvertsDecode := by
  intro op rest
  refine ⟨fun h => ⟨instrOf op (rest.getD 0 0) (rest.getD 1 0) (rest.getD 2 0), ?decoded, wellFormed_instrOf _ _ _ _,
    ?encoded⟩, fun h => ?short⟩
  case decoded => exact if_neg (Nat.not_lt.2 h)
  case encoded => rw [encode_instrOf, take_getD_eq_take h (arity_le_three op)]
  case short => exact if_pos h

/-- Settles O27: the words decode to a well-formed instruction with the same words, which `encode_injective` identifies. -/
theorem decodeEncodeRoundTrip : Obligations.DecodeEncodeRoundTrip := by
  intro i rest hi
  obtain ⟨op, operands, hw, hl⟩ := encode_eq_cons hi
  obtain ⟨j, hj, hjw, hje⟩ := (encodeInvertsDecode op (operands ++ rest)).1 (by simp [hl])
  rw [← hl, List.drop_left] at hj
  rw [← hl, List.take_left, ← hw] at hje
  rw [hw, List.cons_append, hj, encode_injective hjw hi hje]

/-- Settles O29: each assigned opcode word has its row in `arity`, and the unassigned ones have `arity_of_unassigned`. -/
theorem arityOfEveryOpcode : Obligations.ArityOfEveryOpcode := by
  intro op
  refine ⟨fun h => ?none, fun h => ?one, fun h => ?two, fun h => ?three⟩
  case none =>
    by_cases hu : 22 ≤ op.toNat
    · exact Laws.arity_of_unassigned hu
    · have : op.toNat = 0 ∨ op.toNat = 18 ∨ op.toNat = 21 := by omega
      rcases this with h | h | h <;> simp only [arity, h]
  case one => rcases h with h | h | h | h | h | h <;> simp only [arity, h]
  case two => rcases h with h | h | h | h | h | h <;> simp only [arity, h]
  case three =>
    have : op.toNat = 4 ∨ op.toNat = 5 ∨ op.toNat = 9 ∨ op.toNat = 10 ∨ op.toNat = 11 ∨ op.toNat = 12 ∨
        op.toNat = 13 := by omega
    rcases this with h | h | h | h | h | h | h <;> simp only [arity, h]

/-- Settles O30, by running the decoder on the words and bytes. -/
theorem writtenOutWordsDecode : Obligations.WrittenOutWordsDecode := by
  unfold Obligations.WrittenOutWordsDecode
  decide

end Sys2Proof.Machine
end

section
/-! `in` (47_char_io R171, R175, R177, R178). -/

namespace Sys2Proof.Machine

/-! The input adapter, by what the line buffer and the host hold. -/

theorem inChar_of_buffered {s : State} {ch : Byte} {cs : List Byte} (hb : s.inbuf = ch :: cs) :
    inChar s = .char ch { s with inbuf := cs } := by
  simp only [inChar, hb]

theorem inChar_of_line {s : State} {ch : Byte} {cs : List Byte} {lines : List (List Byte)} (hb : s.inbuf = [])
    (hl : s.input = (ch :: cs) :: lines) : inChar s = .char ch { s with inbuf := cs, input := lines } := by
  simp only [inChar, hb, hl]

theorem inChar_of_emptyLine {s : State} {lines : List (List Byte)} (hb : s.inbuf = []) (hl : s.input = [] :: lines) :
    inChar s = .fatal .emptyInputLine { s with input := lines } := by
  simp only [inChar, hb, hl]

theorem inChar_of_closed {s : State} (hb : s.inbuf = []) (hl : s.input = []) (hc : s.inputClosed = true) :
    inChar s = .fatal .inputExhausted s := by
  simp only [inChar, hb, hl, hc, if_true]

theorem inChar_of_open {s : State} (hb : s.inbuf = []) (hl : s.input = []) (hc : s.inputClosed = false) :
    inChar s = .wait := by
  simp only [inChar, hb, hl, hc, Bool.false_eq_true, if_false]

/-! `in` past its destination check, by what the input adapter answers. -/

theorem exec_input_of_char {a : Word} {d : Fin 8} {s t : State} {ch : Byte} (ha : DestIs a d)
    (hc : inChar s = .char ch t) : exec (.input a) s = .next ((t.advance 2).setReg d (BitVec.ofNat 16 ch.toNat)) := by
  rw [exec, execIn, dest_of_destIs ha, hc, BitVec.ofNat_toNat]

theorem exec_input_of_fatal {a : Word} {s t : State} {r : Reason} (ha : ¬ NotRegister a)
    (hc : inChar s = .fatal r t) : exec (.input a) s = .next (t.raise r) := by
  obtain ⟨d, hd⟩ := destIs_of_not_notRegister ha
  rw [exec, execIn, dest_of_destIs hd, hc]

theorem exec_input_of_wait {a : Word} {s : State} (ha : ¬ NotRegister a) (hc : inChar s = .wait) :
    exec (.input a) s = .next s := by
  obtain ⟨d, hd⟩ := destIs_of_not_notRegister ha
  rw [exec, execIn, dest_of_destIs hd, hc, waiting]

/-- Settles O23: the destination check comes first, then one case for each answer of the input adapter. -/
theorem inTakesTheNextCharacter : Obligations.InTakesTheNextCharacter := by
  intro a s
  refine ⟨(Laws.EncodeRoundTrip.input a rfl).1, fun d ch cs ha hb => ?buffered, fun d ch cs lines ha hb hl => ?line,
    fun lines ha hb hl => ?emptyLine, fun ha hb hl hc => ?closed, fun ha hb hl hc => ?waits, fun ha => ?noRegister⟩
  case buffered => exact exec_input_of_char ha (inChar_of_buffered hb)
  case line => exact exec_input_of_char ha (inChar_of_line hb hl)
  case emptyLine => exact exec_input_of_fatal ha (inChar_of_emptyLine hb hl)
  case closed => exact exec_input_of_fatal ha (inChar_of_closed hb hl hc)
  case waits => exact exec_input_of_wait ha (inChar_of_open hb hl hc)
  case noRegister => exact aborts_of_destOperand rfl ha s

end Sys2Proof.Machine
end

section
/-! The frames of every instruction, each read off `exec_cases`: what it changes of one part of the state. -/

namespace Sys2Proof.Machine

/-- R11: a register whose number the destination operand is not keeps its content. -/
theorem State.setReg_x_get_of_ne {s : State} {a : Word} {d j : Fin 8} {v : Word} (ha : DestIs a d)
    (hj : a.toNat ≠ 32768 + j.val) : (s.setReg d v).x.get j = s.x.get j := by
  have hjd : j ≠ d := by rintro rfl; exact hj ha
  exact (s.reg_setReg d j v).trans (if_neg hjd)

/-- Settles O41: of the cases of `exec_cases` only the four that write a register touch `x`, at their destination. -/
theorem registersChangeOnlyThroughTheDestination : Obligations.RegistersChangeOnlyThroughTheDestination := by
  intro i s t h j hj
  cases exec_cases h with
  | write a d v n hd ha => exact State.setReg_x_get_of_ne ha (hj a hd)
  | pop a d below v hi ha => exact State.setReg_x_get_of_ne ha (hj a (hi ▸ rfl))
  | buffered a d ch cs hi ha => exact State.setReg_x_get_of_ne ha (hj a (hi ▸ rfl))
  | newLine a d ch cs lines hi ha => exact State.setReg_x_get_of_ne ha (hj a (hi ▸ rfl))
  | _ => rfl

/-- Settles O42: only the `store` case writes the Program Store, and `Memory.read_write` says at which cell. -/
theorem cellsChangeOnlyWhereWmemStores : Obligations.CellsChangeOnlyWhereWmemStores := by
  intro i s t h n hn
  cases exec_cases h with
  | store a b addr v hi ha =>
    have hne : n ≠ addr.toNat := (hn a b addr hi (resolveAddress_of_addressIs ha)).symm
    rw [State.writeCell_mem, Memory.read_write, if_neg hne, State.advance_mem]
  | _ => rfl

/-- R15: what is left of a stack without its top word. -/
theorem State.stackDrop_append {s : State} {below : List Word} {w : Word} (h : s.stack = below ++ [w]) :
    s.stack = s.stackDrop.stack ++ [w] := by
  rw [State.stackDrop_of_append h]; exact h

/-- Settles O43: `push` and `call` are the cases that append, `pop` and `ret` those that remove. -/
theorem stackChangesOnlyByPushPopCallRet : Obligations.StackChangesOnlyByPushPopCallRet := by
  intro i s t h
  cases exec_cases h with
  | push a v hi => exact .inr (.inl ⟨⟨a, .inl hi⟩, v, rfl⟩)
  | call a t hi => exact .inr (.inl ⟨⟨a, .inr hi⟩, s.pc + 2, rfl⟩)
  | pop a d below v hi ha hs => exact .inr (.inr ⟨.inr ⟨a, hi⟩, v, State.stackDrop_append hs⟩)
  | ret below w t hi hs => exact .inr (.inr ⟨.inl hi, w, State.stackDrop_append hs⟩)
  | _ => exact .inl rfl

/-- Settles O44: an empty line holds no character, and a line is taken with its first one. -/
theorem inputIsTakenOnlyByInInOrder : Obligations.InputIsTakenOnlyByInInOrder := by
  intro i s t h
  cases exec_cases h with
  | emptyLine a lines hi hb hl =>
    refine ⟨rfl, .inr ⟨⟨a, hi⟩, .inl ?_⟩⟩
    simp [State.pendingChars, hl]
  | buffered a d ch cs hi ha hb =>
    refine ⟨rfl, .inr ⟨⟨a, hi⟩, .inr ⟨ch, ?_⟩⟩⟩
    simp [State.pendingChars, hb]
  | newLine a d ch cs lines hi ha hb hl =>
    refine ⟨rfl, .inr ⟨⟨a, hi⟩, .inr ⟨ch, ?_⟩⟩⟩
    simp [State.pendingChars, hb, hl]
  | _ => exact ⟨rfl, .inl ⟨rfl, rfl⟩⟩

/-- Settles O45: only the `emit` case of `exec_cases` touches the output. -/
theorem outputGrowsOnlyByOut : Obligations.OutputGrowsOnlyByOut := by
  intro i s t h
  cases exec_cases h with
  | emit a ch hi => exact .inr ⟨⟨a, hi⟩, ch, rfl⟩
  | _ => exact .inl rfl

/-- Settles O46: the status is written by an abort, for an instruction's reason, and by `halt` and its like. -/
theorem statusChangesOnlyToATerminalOne : Obligations.StatusChangesOnlyToATerminalOne := by
  intro i s t h
  cases exec_cases h with
  | abort r hr => exact .inr (.inl ⟨r, rfl, hr⟩)
  | emptyLine a lines => exact .inr (.inl ⟨.emptyInputLine, rfl, rfl⟩)
  | halt hi => exact .inr (.inr ⟨rfl, hi⟩)
  | _ => exact .inl rfl

/-- R90, R92: an instruction that halts is one word long. -/
theorem length_encode_of_halting {i : Instr} {P : Word → Prop} (h : i = .halt ∨ ∃ op : Word, encode i = [op] ∧ P op) :
    (encode i).length = 1 := by
  rcases h with rfl | ⟨op, e, -⟩
  · rfl
  · rw [e]; rfl

/-- Settles O47: the cases of `exec_cases` advance the pc by the instruction's length, keep it, or jump to a cell. -/
theorem pcMovesPastTheWordsOrToACell : Obligations.PcMovesPastTheWordsOrToACell := by
  intro i s t h
  cases exec_cases h with
  | abort r => exact .inr (.inl ⟨rfl, .inl ⟨r, rfl⟩⟩)
  | emptyLine a lines => exact .inr (.inl ⟨rfl, .inl ⟨.emptyInputLine, rfl⟩⟩)
  | wait a hi => exact .inr (.inl ⟨rfl, .inr ⟨a, hi, rfl⟩⟩)
  | halt hi => exact .inl (by rw [length_encode_of_halting hi]; rfl)
  | write a d v n hd ha hp hin hl => exact .inl (hl ▸ rfl)
  | jump t ht hi => exact .inr (.inr ⟨ht, .inr (hi.imp (fun ⟨a, e⟩ => ⟨a, .inl e⟩) id)⟩)
  | notTaken a b hi => exact .inl (by rcases hi with rfl | rfl <;> rfl)
  | call a t hi ht => exact .inr (.inr ⟨ht, .inr (.inl ⟨a, .inr hi⟩)⟩)
  | ret below w t hi hs ht => exact .inr (.inr ⟨ht, .inl hi⟩)
  | noop hi => exact .inl (hi ▸ rfl)
  | push a v hi => exact .inl (hi ▸ rfl)
  | pop a d below v hi => exact .inl (hi ▸ rfl)
  | store a b addr v hi => exact .inl (hi ▸ rfl)
  | emit a ch hi => exact .inl (hi ▸ rfl)
  | buffered a d ch cs hi => exact .inl (hi ▸ rfl)
  | newLine a d ch cs lines hi => exact .inl (hi ▸ rfl)

/-- R11: registers below 32768 stay so when a word below 32768 is written to one of them. -/
theorem State.setReg_small {s : State} {d : Fin 8} {v : Word} (hs : ∀ j : Fin 8, (s.x.get j).toNat < 32768)
    (hv : v.toNat < 32768) (j : Fin 8) : ((s.setReg d v).x.get j).toNat < 32768 := by
  have e : (s.setReg d v).x.get j = if j = d then v else s.x.get j := s.reg_setReg d j v
  rw [e]
  split
  · exact hv
  · exact hs j

/-- R171: a character in a register is below 32768. -/
theorem setWidth_byte_small (ch : Byte) : (ch.setWidth 16).toNat < 32768 := by
  have := ch.isLt
  rw [BitVec.toNat_setWidth]; omega

/-- Settles O50: what each case of `exec_cases` that writes a register writes is below 32768. -/
theorem smallRegistersStaySmall : Obligations.SmallRegistersStaySmall := by
  intro i s t h hs hpop hrmem
  cases exec_cases h with
  | write a d v n hd ha hp hin hl hv => exact State.setReg_small (s := s.advance n) hs (hv hs hrmem)
  | pop a d below v hi ha hb => exact State.setReg_small (s := (s.advance 2).stackDrop) hs (hpop a v below hi hb)
  | buffered a d ch cs => exact State.setReg_small (s := State.advance { s with inbuf := cs } 2) hs (setWidth_byte_small ch)
  | newLine a d ch cs lines =>
    exact State.setReg_small (s := State.advance { s with inbuf := cs, input := lines } 2) hs (setWidth_byte_small ch)
  | _ => exact hs

end Sys2Proof.Machine
end

section
/-! One step (40_engine R70 to R74, R79, R83; 20_memory R44): what the fetch finds decides it. -/

namespace Sys2Proof.Machine

/-! The step of a running state, by what its fetch finds. -/

theorem step_of_endOfStore {s : State} (hs : s.status = .running) (hf : fetch s = .endOfStore) :
    step s = .next s.halt := by
  rw [step, hs, hf]; rfl

theorem step_of_truncated {s : State} (hs : s.status = .running) (hf : fetch s = .truncated) :
    step s = .next (s.raise .truncatedInstruction) := by
  rw [step, hs, hf]; rfl

theorem step_of_instr {s : State} {i : Instr} (hs : s.status = .running) (hf : fetch s = .instr i) :
    step s = exec i s := by
  simp only [step, hs, hf]

/-- R73: what is fetched is the instruction whose words stand in the cells from the pc on. -/
theorem fetch_of_encode {s : State} {i : Instr} (hi : i.wellFormed = true)
    (hl : s.pc.toNat + (encode i).length ≤ 32768)
    (hm : ∀ k : Nat, k < (encode i).length → s.mem.read (s.pc.toNat + k) = (encode i).getD k 0) :
    fetch s = .instr i := by
  obtain ⟨op, operands, hw, hn⟩ := encode_eq_cons hi
  rw [hw] at hl hm
  rw [List.length_cons] at hl hm
  have hop : s.mem.read s.pc.toNat = op := hm 0 (by omega)
  rcases fetch_cases s with ⟨hp, -⟩ | ⟨-, ht, -⟩ | ⟨-, a, b, c, hf, hcells⟩
  · omega
  · rw [hop] at ht; omega
  · rw [hop] at hf hcells
    have hops : (List.range (arity op)).map (fun k => s.mem.read (s.pc.toNat + 1 + k)) = operands := by
      refine List.ext_getElem (by simp [hn]) fun k hk hk' => ?_
      have e := hm (k + 1) (by omega)
      rw [List.getD_cons_succ, List.getD_eq_getElem _ _ hk'] at e
      rw [List.getElem_map, List.getElem_range, ← e, Nat.add_assoc, Nat.add_comm 1 k]
    have he : encode (instrOf op a b c) = encode i := by rw [encode_instrOf, hcells, hops, hw]
    rw [hf, encode_injective (wellFormed_instrOf op a b c) hi he]

/-- Settles O31: the fetch finds the instruction (`fetch_of_encode`), and the step is its meaning. -/
theorem stepRunsTheDecodedInstruction : Obligations.StepRunsTheDecodedInstruction := by
  intro s i hs hi hl hm
  exact step_of_instr hs (fetch_of_encode hi hl hm)

/-- Settles O32: with the pc beyond the last cell the fetch finds the end of the store. -/
theorem stepHaltsAtTheEndOfTheStore : Obligations.StepHaltsAtTheEndOfTheStore := by
  intro s hs hp
  have hf : fetch s = .endOfStore := if_pos hp
  exact step_of_endOfStore hs hf

/-- Settles O33: of the cases of a fetch only the truncated one fits the pc and the arity. -/
theorem stepAbortsOnATruncatedInstruction : Obligations.StepAbortsOnATruncatedInstruction := by
  intro s hs hp ht
  rcases fetch_cases s with ⟨hp', -⟩ | ⟨-, -, hf⟩ | ⟨hl, -⟩
  · omega
  · exact step_of_truncated hs hf
  · omega

/-- R79: an instruction's effect, completed or aborted, is a next state. -/
theorem complete_next (s : State) (e : Except Reason State) : ∃ t, complete s e = .next t := by
  cases e with
  | ok t => exact ⟨t, rfl⟩
  | error r => exact ⟨s.raise r, rfl⟩

theorem execIn_next (a : Word) (s : State) : ∃ t, execIn a s = .next t := by
  unfold execIn
  cases dest a with
  | error r => exact ⟨_, rfl⟩
  | ok d => cases inChar s <;> exact ⟨_, rfl⟩

/-- R73: no instruction is without a meaning, and none ends in a fault. -/
theorem exec_next (i : Instr) (s : State) : ∃ t, exec i s = .next t := by
  cases i
  case input a => exact execIn_next a s
  case halt | noop => exact ⟨_, rfl⟩
  case set | push | pop | eq | gt | jmp | jt | jf | add | mult | mod | and | or | not | rmem | wmem | call | ret | out =>
    exact complete_next s _
  all_goals exact ⟨_, haltAfterOpcode_eq s⟩

/-- Settles O34: each thing a fetch can find has a next state, and outside Running there is `noStep`. -/
theorem stepIsEnabledExactlyWhenRunning : Obligations.StepIsEnabledExactlyWhenRunning := by
  intro s
  refine ⟨fun hs => ?running, fun hs => ?ended⟩
  case running =>
    cases hf : fetch s with
    | endOfStore => exact ⟨_, step_of_endOfStore hs hf⟩
    | truncated => exact ⟨_, step_of_truncated hs hf⟩
    | instr i => rw [step_of_instr hs hf]; exact exec_next i s
  case ended =>
    unfold step
    cases h : s.status with
    | running => exact absurd h hs
    | halted => rfl
    | aborted r p => rfl

/-- R90, R92: the opcode word 0 and those from 22 up select an instruction that halts. -/
theorem exec_instrOf_of_halting {op : Word} (h : op.toNat = 0 ∨ 22 ≤ op.toNat) (a b c : Word) (s : State) :
    exec (instrOf op a b c) s = haltAfterOpcode s := by
  rcases h with h | h
  · simp only [instrOf, h]; rfl
  · rw [Laws.instrOf_of_unassigned h, exec_unassignedRow]

/-- R83: a well-formed instruction ends a running state in Halted only if its opcode word is 0 or unassigned. -/
theorem opcode_of_exec_halted {i : Instr} {s t : State} (hi : i.wellFormed = true) (hs : s.status = .running)
    (h : exec i s = .next t) (ht : t.status = .halted) :
    ((encode i).headD 0).toNat = 0 ∨ 22 ≤ ((encode i).headD 0).toNat := by
  rcases statusChangesOnlyToATerminalOne i s t h with e | ⟨r, e, -⟩ | ⟨-, rfl | ⟨op, e, hop⟩⟩
  · rw [ht, hs] at e; cases e
  · rw [ht] at e; cases e
  · exact .inl rfl
  · rw [e]; exact .inr (hop hi)

/-- Settles O35: at the end of the store, a truncated instruction, and an instruction by its opcode word. -/
theorem haltedIsReachedInThreeWays : Obligations.HaltedIsReachedInThreeWays := by
  intro s t hs h
  rcases fetch_cases s with ⟨hp, hf⟩ | ⟨hp, ha, hf⟩ | ⟨hl, a, b, c, hf, -⟩
  · rw [step_of_endOfStore hs hf] at h; cases h
    exact ⟨fun _ => .inl hp, fun _ => rfl⟩
  · rw [step_of_truncated hs hf] at h; cases h
    refine ⟨nofun, fun hc => ?_⟩
    obtain ⟨arityZero, -⟩ := arityOfEveryOpcode (s.mem.read s.pc.toNat)
    have := arityZero (by omega)
    omega
  · rw [step_of_instr hs hf] at h
    refine ⟨fun ht => .inr ?_, fun hc => ?_⟩
    · have := opcode_of_exec_halted (wellFormed_instrOf _ a b c) hs h ht
      rwa [encode_instrOf, List.headD_cons] at this
    · rw [exec_instrOf_of_halting (by omega), haltAfterOpcode] at h; cases h
      rfl

/-- R79, R205, R206: an instruction that aborts a running state writes the status, and `in` takes an empty line. -/
theorem exec_aborted {i : Instr} {s t : State} {r : Reason} {p : Word} (hs : s.status = .running)
    (h : exec i s = .next t) (ht : t.status = .aborted r p) :
    t = s.raise r ∧ p = s.pc ∨
    r = .emptyInputLine ∧ p = s.pc ∧ s.inbuf = [] ∧ s.input = [] :: t.input ∧
      t = State.raise { s with input := t.input } r := by
  cases exec_cases h with
  | abort r' => cases ht; exact .inl ⟨rfl, rfl⟩
  | emptyLine a lines hi hb hl => cases ht; exact .inr ⟨rfl, rfl, hb, hl, rfl⟩
  | halt => cases ht
  | _ => exact nomatch hs.symm.trans ht

/-- Settles O36: a truncated instruction raises from the state itself, an instruction as `exec_aborted` says. -/
theorem abortingStepWritesNothingElse : Obligations.AbortingStepWritesNothingElse := by
  intro s t r p hs h ht
  obtain ⟨-, ⟨-, rfl⟩ | ⟨-, -, rfl⟩ | ⟨i, -, hi⟩⟩ := step_cases h
  · cases ht
  · cases ht; exact ⟨rfl, rfl, .inl rfl⟩
  · rcases exec_aborted hs hi ht with ⟨rfl, rfl⟩ | ⟨rfl, rfl, hb, hl, e⟩
    · exact ⟨rfl, rfl, .inl rfl⟩
    · exact ⟨rfl, e, .inr ⟨rfl, hb, hl⟩⟩

/-- R44: writing a cell leaves the words behind it, here those of an instruction that starts in the cell. -/
theorem read_write_eq_getD {m : Memory} {addr n k : Nat} {v : Word} (hn : n ≤ 3) (hk : k < n + 1) :
    (m.write addr v).read (addr + k) =
      (v :: [m.read (addr + 1), m.read (addr + 2), m.read (addr + 3)].take n).getD k 0 := by
  cases k with
  | zero => rw [Nat.add_zero, Memory.read_write, if_pos rfl, List.getD_cons_zero]
  | succ k =>
    have hk' : k < n := by omega
    rw [Memory.read_write, if_neg (by omega), List.getD_cons_succ, List.getD_eq_getElem?_getD,
      List.getElem?_take_of_lt hk']
    have : k = 0 ∨ k = 1 ∨ k = 2 := by omega
    rcases this with rfl | rfl | rfl <;> rfl

/-- Settles O37: from the stored cell on the new store holds the words of the decoded instruction. -/
theorem storedWordIsFetchedNext : Obligations.StoredWordIsFetchedNext := by
  intro a b addr v s t i rest ha hb h hl hd
  rw [exec_wmem_of_operandIs ha hb] at h; cases h
  have h3 := arity_le_three v
  obtain ⟨j, hj, hjw, hje⟩ := (encodeInvertsDecode v
    [s.mem.read (addr.toNat + 1), s.mem.read (addr.toNat + 2), s.mem.read (addr.toNat + 3)]).1 h3
  rw [hd] at hj; cases hj
  have hlen : (encode i).length = arity v + 1 := by simp [hje, h3]
  refine stepRunsTheDecodedInstruction _ i rfl hjw ?inside fun k hk => ?words
  case inside => show addr.toNat + (encode i).length ≤ 32768; omega
  case words => rw [hje]; exact read_write_eq_getD h3 (hlen ▸ hk)

end Sys2Proof.Machine
end

section
/-! The invariant of every step and of every run (10_state R14; 40_engine R81; 60_exceptions R206). -/

namespace Sys2Proof.Machine

/-- R14: an instruction that ends inside the store leaves the pc at most 32768. -/
theorem exec_pc_le {i : Instr} {s t : State} (h : exec i s = .next t) (hl : s.pc.toNat + (encode i).length ≤ 32768) :
    t.pc.toNat ≤ 32768 := by
  rcases pcMovesPastTheWordsOrToACell i s t h with e | ⟨e, -⟩ | ⟨hlt, -⟩
  · rw [e, toNat_advance hl]; exact hl
  · rw [e]; omega
  · omega

/-- R206: an instruction in a running state leaves a good status: an abort keeps the pc and has a reason of its own. -/
theorem exec_goodFor {i : Instr} {s t : State} (h : exec i s = .next t) (hs : s.status = .running)
    (hp : s.pc.toNat < 32768) : t.status.goodFor t.pc = true := by
  cases ht : t.status with
  | running => rfl
  | halted => rfl
  | aborted r p =>
    have hr : r.ofInstruction = true := by
      rcases statusChangesOnlyToATerminalOne i s t h with e | ⟨r', e, hr⟩ | ⟨e, -⟩ <;> rw [ht] at e
      · rw [hs] at e; cases e
      · cases e; exact hr
      · cases e
    rcases exec_aborted hs h ht with ⟨rfl, rfl⟩ | ⟨-, rfl, -, -, e⟩
    · simp [Status.goodFor, hp, hr]
    · rw [e]; simp [Status.goodFor, hp, hr]

/-- R90: halting keeps the invariant. -/
theorem Inv.halt {s : State} (h : Inv s) : Inv s.halt := by
  obtain ⟨hm, hp, -⟩ := h
  exact ⟨hm, hp, rfl⟩

/-- R206: so does an abort inside the store, with a reason of an instruction. -/
theorem Inv.raise {s : State} {r : Reason} (h : Inv s) (hp : s.pc.toNat < 32768) (hr : r.ofInstruction = true) :
    Inv (s.raise r) := by
  obtain ⟨hm, hp', -⟩ := h
  exact ⟨hm, hp', by simp [Status.goodFor, hp, hr]⟩

/-- Settles O38: the end of the store, a truncated instruction, or one that ends inside the store. -/
theorem stepKeepsTheInvariant : Obligations.StepKeepsTheInvariant := by
  intro s t hinv h
  obtain ⟨hs, ⟨-, rfl⟩ | ⟨hp, -, rfl⟩ | ⟨i, hf, hi⟩⟩ := step_cases h
  · exact hinv.halt
  · exact hinv.raise hp rfl
  · obtain ⟨hw, hl, -⟩ := fetch_instr hf
    obtain ⟨op, operands, he, -⟩ := encode_eq_cons hw
    have hp : s.pc.toNat < 32768 := by rw [he, List.length_cons] at hl; omega
    exact ⟨exec_keeps_memory_wf hi hinv.1, exec_pc_le hi hl, exec_goodFor hi hs hp⟩

/-- R227: padding fills the store, and does not reach beyond it. -/
theorem length_paddedImage_le (pad : Word) {ws : List Word} (h : ws.length ≤ 32768) :
    (paddedImage pad ws).length ≤ 32768 := by
  unfold paddedImage Config.memWords
  split
  · exact h
  · rw [List.length_append, List.length_replicate]; omega

/-- R225, R226: an image is accepted when it has whole words, not more than cells. -/
theorem loadPadded_ok {pad : Word} {image : List Byte} {s : State} (h : loadPadded pad image = .ok s) :
    ∃ ws, wordsOfBytes image = some ws ∧ ws.length ≤ 32768 ∧
      s = { State.reset with mem := cellsFrom 0 (paddedImage pad ws) } := by
  unfold loadPadded at h
  cases hw : wordsOfBytes image with
  | none => rw [hw] at h; cases h
  | some ws =>
    simp only [hw, loadWordsPadded] at h
    split at h
    · cases h
    · cases h; exact ⟨ws, rfl, Nat.not_lt.1 ‹_›, rfl⟩

/-- R23: from reset on only the store decides the invariant. -/
theorem inv_reset_with_mem {m : Memory} (h : m.wf = true) : Inv { State.reset with mem := m } :=
  ⟨h, Nat.zero_le 32768, rfl⟩

/-- Settles O39: reset has an empty store, and loaded cells are in canonical form (`cellsFrom_wf`). -/
theorem startStatesMeetTheInvariant : Obligations.StartStatesMeetTheInvariant := by
  refine ⟨inv_reset_with_mem (m := []) rfl, fun pad image s h => ?_⟩
  obtain ⟨ws, -, hl, rfl⟩ := loadPadded_ok h
  have hpad := length_paddedImage_le pad hl
  exact inv_reset_with_mem (cellsFrom_wf 0 _ (by omega))

/-! R177: what the host's moves leave unchanged. -/

@[simp] theorem State.deliverLine_mem (s : State) (l : List Byte) : (s.deliverLine l).mem = s.mem := by
  unfold State.deliverLine; split <;> rfl

@[simp] theorem State.deliverLine_pc (s : State) (l : List Byte) : (s.deliverLine l).pc = s.pc := by
  unfold State.deliverLine; split <;> rfl

@[simp] theorem State.deliverLine_status (s : State) (l : List Byte) : (s.deliverLine l).status = s.status := by
  unfold State.deliverLine; split <;> rfl

theorem Inv.deliverLine {s : State} (h : Inv s) (l : List Byte) : Inv (s.deliverLine l) := by
  simpa [Inv] using h

theorem Inv.closeInput {s : State} (h : Inv s) : Inv s.closeInput := h

/-- R81: the invariant holds along every run, by induction on the run. -/
theorem inv_of_reachable {s : State} (h : Reachable s) : Inv s := by
  induction h with
  | start h => exact startStatesMeetTheInvariant.2 _ _ _ h
  | step _ h ih => exact stepKeepsTheInvariant _ _ ih h
  | line l _ ih => exact ih.deliverLine l
  | close _ ih => exact ih.closeInput

/-- Settles O40: the bound on the pc is part of the invariant, which `inv_of_reachable` carries along the run. -/
theorem runsStayInTheInvariant : Obligations.RunsStayInTheInvariant := by
  intro s h
  obtain ⟨hm, hp, hstatus⟩ := inv_of_reachable h
  exact ⟨⟨hm, hp, hstatus⟩, hp⟩

end Sys2Proof.Machine
end

section
/-! What no step looks at (10_state R20, R25; 47_char_io R172, R175): output emitted before, and lines behind the next. -/

namespace Sys2Proof.Machine

/-- R20: the same machine with output put before its own and lines delivered behind its own. -/
def State.addEnv (s : State) (earlier : List Byte) (later : List (List Byte)) : State :=
  { s with input := s.input ++ later, output := earlier ++ s.output }

/-- R75: an operand's value does not depend on the environment. -/
theorem resolve_addEnv (s : State) (earlier : List Byte) (later : List (List Byte)) (raw : Word) :
    resolve (s.addEnv earlier later) raw = resolve s raw := rfl

theorem resolveAddress_addEnv (s : State) (earlier : List Byte) (later : List (List Byte)) (raw : Word) :
    resolveAddress (s.addEnv earlier later) raw = resolveAddress s raw := rfl

theorem State.emit_addEnv (s : State) (earlier : List Byte) (later : List (List Byte)) (ch : Byte) :
    (s.addEnv earlier later).emit ch = (s.emit ch).addEnv earlier later := by
  simp [State.addEnv, State.emit]

/-- Two next states that differ in the environment only, for an instruction that is run with and without it. -/
theorem exec_addEnv_of_next {i : Instr} {s t : State} {earlier : List Byte} {later : List (List Byte)}
    (h : exec i s = .next t)
    (h' : exec i (s.addEnv earlier later) = .next (t.addEnv earlier later)) :
    exec i (s.addEnv earlier later) = mapNext (fun t => t.addEnv earlier later) (exec i s) := by
  rw [h, h']; rfl

section
variable (earlier : List Byte) (later : List (List Byte))

/-- An effect does the same with more environment when what follows its first check does. -/
theorem complete_bind_addEnv {α : Type} {s : State} (e : Except Reason α) {k k' : α → Except Reason State}
    (h : ∀ v, complete (s.addEnv earlier later) (k' v) =
      mapNext (fun t => t.addEnv earlier later) (complete s (k v))) :
    complete (s.addEnv earlier later) (e >>= k') = mapNext (fun t => t.addEnv earlier later) (complete s (e >>= k)) := by
  cases e with
  | error r => rfl
  | ok v => exact h v

theorem destSrcSrc_addEnv (f : Word → Word → Word) (a b c : Word) (s : State) :
    destSrcSrc f a b c (s.addEnv earlier later) =
      mapNext (fun t => t.addEnv earlier later) (destSrcSrc f a b c s) := by
  refine complete_bind_addEnv earlier later (dest a) fun d => ?_
  refine complete_bind_addEnv earlier later (resolve s b) fun vb => ?_
  exact complete_bind_addEnv earlier later (resolve s c) fun vc => rfl

theorem jumpWhen_addEnv (taken : Word → Bool) (a b : Word) (s : State) :
    jumpWhen taken a b (s.addEnv earlier later) =
      mapNext (fun t => t.addEnv earlier later) (jumpWhen taken a b s) := by
  refine complete_bind_addEnv earlier later (resolve s a) fun va => ?_
  cases taken va with
  | false => rfl
  | true => exact complete_bind_addEnv earlier later (resolveAddress s b) fun t => rfl

theorem exec_pop_addEnv (a : Word) (s : State) :
    exec (.pop a) (s.addEnv earlier later) = mapNext (fun t => t.addEnv earlier later) (exec (.pop a) s) := by
  rcases dest_cases a with ⟨d, hd, -⟩ | ⟨ha, -⟩
  · rcases stack_cases s with hs | ⟨below, w, hs⟩
    · exact exec_addEnv_of_next (exec_pop_of_empty hd hs) (exec_pop_of_empty hd hs)
    · exact exec_addEnv_of_next (exec_pop_of_append hd hs) (exec_pop_of_append hd hs)
  · exact exec_addEnv_of_next (aborts_of_destOperand rfl ha s) (aborts_of_destOperand rfl ha _)

theorem exec_ret_addEnv (s : State) :
    exec .ret (s.addEnv earlier later) = mapNext (fun t => t.addEnv earlier later) (exec .ret s) := by
  rcases stack_cases s with hs | ⟨below, w, hs⟩
  · exact exec_addEnv_of_next (exec_ret_of_empty hs) (exec_ret_of_empty hs)
  · rw [exec_ret_of_append hs, exec_ret_of_append (s := s.addEnv earlier later) hs]
    exact complete_bind_addEnv earlier later (resolveAddress s w) fun t => rfl

/-- R25, R175: `in` sees the next line at most, so lines behind it change nothing. -/
theorem exec_input_addEnv {s : State} (h : later = [] ∨ s.inbuf ≠ [] ∨ s.input ≠ []) (a : Word) :
    exec (.input a) (s.addEnv earlier later) = mapNext (fun t => t.addEnv earlier later) (exec (.input a) s) := by
  by_cases ha : NotRegister a
  · exact exec_addEnv_of_next (aborts_of_destOperand rfl ha s) (aborts_of_destOperand rfl ha _)
  obtain ⟨d, hd⟩ := destIs_of_not_notRegister ha
  have hinput : (s.addEnv earlier later).input = s.input ++ later := rfl
  rcases inChar_cases s with ⟨ch, cs, hb, e⟩ | ⟨ch, cs, lines, hb, hl, e⟩ | ⟨lines, hb, hl, e⟩ | ⟨hb, hl, hc, e⟩ |
    ⟨hb, hl, hc, e⟩
  · have e' := inChar_of_buffered (s := s.addEnv earlier later) hb
    exact exec_addEnv_of_next (exec_input_of_char hd e) (exec_input_of_char hd e')
  · have e' := inChar_of_line (s := s.addEnv earlier later) hb (hinput.trans (congrArg (· ++ later) hl))
    exact exec_addEnv_of_next (exec_input_of_char hd e) (exec_input_of_char hd e')
  · have e' := inChar_of_emptyLine (s := s.addEnv earlier later) hb (hinput.trans (congrArg (· ++ later) hl))
    exact exec_addEnv_of_next (exec_input_of_fatal ha e) (exec_input_of_fatal ha e')
  · obtain rfl : later = [] := by simpa [hb, hl] using h
    have e' := inChar_of_closed (s := s.addEnv earlier []) hb (hinput.trans (congrArg (· ++ []) hl)) hc
    exact exec_addEnv_of_next (exec_input_of_fatal ha e) (exec_input_of_fatal ha e')
  · obtain rfl : later = [] := by simpa [hb, hl] using h
    have e' := inChar_of_open (s := s.addEnv earlier []) hb (hinput.trans (congrArg (· ++ []) hl)) hc
    exact exec_addEnv_of_next (exec_input_of_wait ha e) (exec_input_of_wait ha e')

/-- R20: every instruction does the same with more environment. -/
theorem exec_addEnv {s : State} (h : later = [] ∨ s.inbuf ≠ [] ∨ s.input ≠ []) (i : Instr) :
    exec i (s.addEnv earlier later) = mapNext (fun t => t.addEnv earlier later) (exec i s) := by
  cases i with
  | set a b =>
    refine complete_bind_addEnv earlier later (dest a) fun d => ?_
    exact complete_bind_addEnv earlier later (resolve s b) fun v => rfl
  | push a => exact complete_bind_addEnv earlier later (resolve s a) fun v => rfl
  | pop a => exact exec_pop_addEnv earlier later a s
  | eq a b c => exact destSrcSrc_addEnv earlier later eqResult a b c s
  | gt a b c => exact destSrcSrc_addEnv earlier later gtResult a b c s
  | jmp a => exact complete_bind_addEnv earlier later (resolveAddress s a) fun t => rfl
  | jt a b => exact jumpWhen_addEnv earlier later nonZero a b s
  | jf a b => exact jumpWhen_addEnv earlier later (fun v => !nonZero v) a b s
  | add a b c => exact destSrcSrc_addEnv earlier later addResult a b c s
  | mult a b c => exact destSrcSrc_addEnv earlier later multResult a b c s
  | mod a b c =>
    refine complete_bind_addEnv earlier later (dest a) fun d => ?_
    refine complete_bind_addEnv earlier later (resolve s b) fun vb => ?_
    refine complete_bind_addEnv earlier later (resolve s c) fun vc => ?_
    exact complete_bind_addEnv earlier later (check (!nonZero vc) .arithmeticError) fun _ => rfl
  | and a b c => exact destSrcSrc_addEnv earlier later andResult a b c s
  | or a b c => exact destSrcSrc_addEnv earlier later orResult a b c s
  | not a b =>
    refine complete_bind_addEnv earlier later (dest a) fun d => ?_
    exact complete_bind_addEnv earlier later (resolve s b) fun v => rfl
  | rmem a b =>
    refine complete_bind_addEnv earlier later (dest a) fun d => ?_
    exact complete_bind_addEnv earlier later (resolveAddress s b) fun addr => rfl
  | wmem a b =>
    refine complete_bind_addEnv earlier later (resolveAddress s a) fun addr => ?_
    exact complete_bind_addEnv earlier later (resolve s b) fun v => rfl
  | call a => exact complete_bind_addEnv earlier later (resolveAddress s a) fun t => rfl
  | ret => exact exec_ret_addEnv earlier later s
  | out a =>
    refine complete_bind_addEnv earlier later (resolve s a) fun v => ?_
    refine complete_bind_addEnv earlier later (check (decide (Config.outLimit ≤ v.toNat)) .invalidOutputValue) fun _ => ?_
    exact congrArg Host.Outcome.next (State.emit_addEnv (s.advance 2) earlier later (v.setWidth 8))
  | input a => exact exec_input_addEnv earlier later h a
  | _ => rfl

/-- R20: a step does the same with more environment: what it fetches is the same, and so is what that does. -/
theorem step_addEnv {s : State} (h : later = [] ∨ s.inbuf ≠ [] ∨ s.input ≠ []) :
    step (s.addEnv earlier later) = mapNext (fun t => t.addEnv earlier later) (step s) := by
  by_cases hs : s.status = .running
  · have hs' : (s.addEnv earlier later).status = .running := hs
    have hfetch : fetch (s.addEnv earlier later) = fetch s := rfl
    cases hf : fetch s with
    | endOfStore => rw [step_of_endOfStore hs hf, step_of_endOfStore hs' (hfetch.trans hf)]; rfl
    | truncated => rw [step_of_truncated hs hf, step_of_truncated hs' (hfetch.trans hf)]; rfl
    | instr i =>
      rw [step_of_instr hs hf, step_of_instr hs' (hfetch.trans hf)]
      exact exec_addEnv earlier later h i
  · obtain ⟨-, ended⟩ := stepIsEnabledExactlyWhenRunning s
    obtain ⟨-, ended'⟩ := stepIsEnabledExactlyWhenRunning (s.addEnv earlier later)
    rw [ended hs, ended' hs]; rfl

end

theorem State.addEnv_no_lines (s : State) (earlier : List Byte) :
    s.addEnv earlier [] = { s with output := earlier ++ s.output } := by
  rw [State.addEnv, List.append_nil]

/-- Settles O48: `step_addEnv` without further lines. -/
theorem outputIsNeverRead : Obligations.OutputIsNeverRead := by
  intro s earlier
  have h := step_addEnv earlier [] (s := s) (.inl rfl)
  simpa only [State.addEnv_no_lines] using h

/-- Settles O49: `step_addEnv` without further output. -/
theorem laterLinesDoNotChangeTheStep : Obligations.LaterLinesDoNotChangeTheStep := by
  intro s later h
  exact step_addEnv [] later (.inr h)

end Sys2Proof.Machine
end

section
/-! The Program Store's canonical form (20_memory R30, R32, R33): readings determine the store. -/

namespace Sys2Proof.Machine

/-- R32: a cell before every listed one reads `PAD_WORD`. -/
theorem Memory.read_of_lt {m : Memory} {n : Nat} (h : ∀ c ∈ m, n < c.1) : m.read n = Config.padWord := by
  induction m with
  | nil => rfl
  | cons c rest ih =>
    obtain ⟨hc, hrest⟩ := List.forall_mem_cons.1 h
    exact (if_neg hc.ne').trans (ih hrest)

theorem Memory.read_cons_self (k : Nat) (w : Word) (rest : Memory) : Memory.read ((k, w) :: rest) k = w :=
  if_pos rfl

theorem Memory.read_cons_of_ne {k n : Nat} (w : Word) (rest : Memory) (h : n ≠ k) :
    Memory.read ((k, w) :: rest) n = rest.read n :=
  if_neg h.symm

/-- In canonical form the first listed cell is one that reads apart from any store without it. -/
theorem Memory.read_ne_of_wf_cons {k : Nat} {w : Word} {rest m : Memory} (h : Memory.wf ((k, w) :: rest) = true)
    (hm : ∀ c ∈ m, k < c.1) : Memory.read ((k, w) :: rest) k ≠ m.read k := by
  obtain ⟨-, hw, -, -⟩ := (Memory.wf_cons k w rest).1 h
  rwa [Memory.read_cons_self, Memory.read_of_lt hm]

/-- In canonical form every cell listed lies behind one before the first. -/
theorem Memory.forall_lt_of_wf_cons {k n : Nat} {w : Word} {rest : Memory} (h : Memory.wf ((k, w) :: rest) = true)
    (hn : n < k) : ∀ c ∈ (k, w) :: rest, n < c.1 := by
  obtain ⟨-, -, hrest, -⟩ := (Memory.wf_cons k w rest).1 h
  exact List.forall_mem_cons.2 ⟨hn, fun c hc => hn.trans (hrest c hc)⟩

/-- Settles O53, by induction on both lists: the first listed cell is the same, and then the rest reads alike. -/
theorem storesThatReadAlikeAreEqual : Obligations.StoresThatReadAlikeAreEqual := by
  intro m
  induction m with
  | nil =>
    intro m' _ h' hread
    cases m' with
    | nil => rfl
    | cons c' rest' =>
      obtain ⟨hk', -⟩ := (Memory.wf_cons _ _ _).1 h'
      exact absurd (hread c'.1 hk').symm (Memory.read_ne_of_wf_cons h' (by simp))
  | cons c rest ih =>
    intro m' h h' hread
    obtain ⟨k, w⟩ := c
    obtain ⟨hk, -, hlt, hrest⟩ := (Memory.wf_cons k w rest).1 h
    cases m' with
    | nil => exact absurd (hread k hk) (Memory.read_ne_of_wf_cons h (by simp))
    | cons c' rest' =>
      obtain ⟨k', w'⟩ := c'
      obtain ⟨hk', -, hlt', hrest'⟩ := (Memory.wf_cons k' w' rest').1 h'
      rcases Nat.lt_trichotomy k k' with hkk | rfl | hkk
      · exact absurd (hread k hk) (Memory.read_ne_of_wf_cons h (Memory.forall_lt_of_wf_cons h' hkk))
      · have hw : w = w' := by simpa only [Memory.read_cons_self] using hread k hk
        have htail : rest = rest' := ih rest' hrest hrest' fun n hn => by
          by_cases hnk : n = k
          · rw [hnk, Memory.read_of_lt hlt, Memory.read_of_lt hlt']
          · simpa only [Memory.read_cons_of_ne _ _ hnk] using hread n hn
        rw [hw, htail]
      · exact absurd (hread k' hk').symm (Memory.read_ne_of_wf_cons h' (Memory.forall_lt_of_wf_cons h hkk))

/-- Settles O52: each pair of stores is in canonical form (`Memory.wf_write`) and reads alike (`Memory.read_write`). -/
theorem writesOverrideAndCommute : Obligations.WritesOverrideAndCommute := by
  intro m addr addr' v v' hm ha ha'
  refine ⟨?override, fun hne => ?commute, ?writeBack⟩
  case override =>
    refine storesThatReadAlikeAreEqual _ _ (Memory.wf_write _ _ _ (Memory.wf_write _ _ _ hm ha) ha)
      (Memory.wf_write _ _ _ hm ha) fun n _ => ?_
    by_cases h : n = addr <;> simp only [Memory.read_write, h, if_true, if_false]
  case commute =>
    refine storesThatReadAlikeAreEqual _ _ (Memory.wf_write _ _ _ (Memory.wf_write _ _ _ hm ha) ha')
      (Memory.wf_write _ _ _ (Memory.wf_write _ _ _ hm ha') ha) fun n _ => ?_
    simp only [Memory.read_write]
    by_cases h : n = addr
    · rw [if_neg (h ▸ hne), if_pos h, if_pos h]
    · rw [if_neg h, if_neg h]
  case writeBack =>
    refine storesThatReadAlikeAreEqual _ _ (Memory.wf_write _ _ _ hm ha) hm fun n _ => ?_
    rw [Memory.read_write]
    split
    · rw [‹n = addr›]
    · rfl

end Sys2Proof.Machine
end

section
/-! The Call Stack: last in, first out (10_state R15; 42_set_stack R101, R102), and finite ones (60_exceptions R201). -/

namespace Sys2Proof.Machine

/-- Effects one after another: first those of `is`, then those of `js`. -/
theorem execAll_append {is js : List Instr} {s t : State} (h : execAll is s = some t) :
    execAll (is ++ js) s = execAll js t := by
  induction is generalizing s with
  | nil => cases h; rfl
  | cons i rest ih =>
    obtain ⟨u, hu⟩ := exec_next i s
    simp only [execAll, hu] at h
    simp only [List.cons_append, execAll, hu]
    split at h
    · rw [if_pos ‹_›, ih h]
    · cases h

theorem execAll_singleton {i : Instr} {s t : State} (h : exec i s = .next t) (ht : t.status = .running) :
    execAll [i] s = some t := by
  simp only [execAll, h, ht, if_true]

/-- R101: literals pushed one after another lie on the stack in their order. -/
theorem execAll_pushes {vs : List Word} {s : State} (hs : s.status = .running) (hv : ∀ v ∈ vs, v.toNat < 32768) :
    ∃ t, execAll (vs.map Instr.push) s = some t ∧ t.status = .running ∧ t.stack = s.stack ++ vs := by
  induction vs generalizing s with
  | nil => exact ⟨s, rfl, hs, (List.append_nil _).symm⟩
  | cons v vs ih =>
    obtain ⟨hlit, hvs⟩ := List.forall_mem_cons.1 hv
    have hpush : exec (.push v) s = .next ((s.advance 2).stackPush v) := exec_push_of_operandIs (.inl ⟨hlit, rfl⟩)
    obtain ⟨t, ht, hrun, hst⟩ := ih (s := (s.advance 2).stackPush v) hs hvs
    refine ⟨t, ?_, hrun, ?_⟩
    · exact (execAll_append (is := [.push v]) (execAll_singleton hpush hs)).trans ht
    · rw [hst, State.stackPush_stack, State.advance_stack, List.append_assoc, List.singleton_append]

/-- R102: one pop moves the top word to the register. -/
theorem execAll_pop {a : Word} {d : Fin 8} {s : State} {below : List Word} {v : Word} (hs : s.status = .running)
    (ha : DestIs a d) (hst : s.stack = below ++ [v]) :
    ∃ t, execAll [.pop a] s = some t ∧ t.status = .running ∧ t.x.get d = v ∧ t.stack = below := by
  have hreg : ((s.advance 2).stackDrop.setReg d v).x.get d = v := (State.reg_setReg _ d d v).trans (if_pos rfl)
  exact ⟨_, execAll_singleton (exec_pop_of_append ha hst) hs, hs, hreg, by simp [hst]⟩

/-- R102: popping away everything above `v`, and then `v`, leaves it in the register and the stack below it. -/
theorem execAll_pops {a : Word} {d : Fin 8} {s : State} {below above : List Word} {v : Word} (hs : s.status = .running)
    (ha : DestIs a d) (hst : s.stack = below ++ v :: above) :
    ∃ t, execAll (List.replicate (above.length + 1) (.pop a)) s = some t ∧ t.status = .running ∧
      t.x.get d = v ∧ t.stack = below := by
  induction above generalizing v below with
  | nil => exact execAll_pop hs ha hst
  | cons w above ih =>
    obtain ⟨u, hu, hurun, -, hust⟩ := ih (below := below ++ [v]) (v := w) (by simp [hst])
    rw [List.length_cons, List.replicate_succ', execAll_append hu]
    exact execAll_pop hurun ha hust

/-- Settles O54: the pushes leave `vs` on the stack, and the pops remove its last `k + 1` words, the `k`-th one last. -/
theorem popsReturnPushesInReverse : Obligations.PopsReturnPushesInReverse := by
  intro vs d a s k hs ha hv hk
  obtain ⟨u, hu, hurun, hust⟩ := execAll_pushes hs hv
  obtain ⟨n, hn⟩ : ∃ n, n = vs.length - (k + 1) := ⟨_, rfl⟩
  have hlt : n < vs.length := by omega
  have hsplit : u.stack = (s.stack ++ vs.take n) ++ vs[n] :: vs.drop (n + 1) := by
    rw [hust, List.append_assoc, ← List.drop_eq_getElem_cons hlt, List.take_append_drop]
  obtain ⟨t, ht, -, hx, hst⟩ := execAll_pops hurun ha hsplit
  have hlen : (vs.drop (n + 1)).length = k := by rw [List.length_drop]; omega
  rw [hlen] at ht
  refine ⟨t, (execAll_append hu).trans ht, ?_, hn ▸ hst⟩
  have hkr : k < vs.reverse.length := by simpa using hk
  rw [hx, List.getD_eq_getElem _ _ hkr, List.getElem_reverse]
  congr 1; omega

theorem stackFull_of_le {depth : Nat} {s : State} (h : depth ≤ s.stack.length) : stackFull (some depth) s = true :=
  decide_eq_true h

theorem stackFull_of_lt {depth : Nat} {s : State} (h : s.stack.length < depth) : stackFull (some depth) s = false :=
  decide_eq_false (Nat.not_le.2 h)

/-- Settles O55: past the operand check a full stack aborts, and one that is not full is like an unbounded one. -/
theorem fullFiniteStackOverflows : Obligations.FullFiniteStackOverflows := by
  intro depth a s
  refine ⟨fun hfull => ⟨fun v hv => ?pushFull, fun t ht => ?callFull⟩, fun hroom => ⟨?pushRoom, ?callRoom⟩⟩
  case pushFull => rw [pushWithin, complete_resolve_of_operandIs hv, stackFull_of_le hfull]; rfl
  case callFull => rw [callWithin, complete_resolveAddress_of_addressIs ht, stackFull_of_le hfull]; rfl
  case pushRoom => rw [pushWithin, stackFull_of_lt hroom]; rfl
  case callRoom => rw [callWithin, stackFull_of_lt hroom]; rfl

end Sys2Proof.Machine
end

section
/-! Reset, the loader and the host's side of the input (70_reset R220 to R228; 47_char_io R176, R177). -/

namespace Sys2Proof.Machine

/-- Settles O56: every register is 0 by `State.reset_x_get`, every cell by the empty store; the rest is stated. -/
theorem resetLeavesTheStatedValues : Obligations.ResetLeavesTheStatedValues :=
  ⟨State.reset_x_get, rfl, rfl, rfl, rfl, rfl, fun _ => rfl, rfl, rfl⟩

/-! R35, R223: the words of an image. -/

theorem wordsOfBytes_of_odd {image : List Byte} (h : image.length % 2 = 1) : wordsOfBytes image = none := by
  induction image using wordsOfBytes.induct with
  | case1 => cases h
  | case2 b => rfl
  | case3 lo hi rest ih =>
    rw [List.length_cons, List.length_cons] at h
    rw [wordsOfBytes, ih (by omega), Option.map_none]

/-- R35: the word made of two bytes, the first the low-order one. -/
theorem toNat_wordOfBytes (lo hi : Byte) :
    (BitVec.ofNat 16 (lo.toNat + 256 * hi.toNat)).toNat = lo.toNat + 256 * hi.toNat := by
  have := lo.isLt
  have := hi.isLt
  rw [BitVec.toNat_ofNat]; omega

/-- R223: bytes in pairs make one word each, little-endian. -/
theorem wordsOfBytes_of_even {image : List Byte} {len : Nat} (h : image.length = 2 * len) :
    ∃ ws, wordsOfBytes image = some ws ∧ ws.length = len ∧ ∀ (n : Nat) (w : Word), n < len →
      (ws.getD n w).toNat = (image.getD (2 * n) 0).toNat + 256 * (image.getD (2 * n + 1) 0).toNat := by
  induction image using wordsOfBytes.induct generalizing len with
  | case1 =>
    obtain rfl : len = 0 := by rw [List.length_nil] at h; omega
    exact ⟨[], rfl, rfl, fun n w hn => absurd hn n.not_lt_zero⟩
  | case2 b => rw [List.length_singleton] at h; omega
  | case3 lo hi rest ih =>
    rw [List.length_cons, List.length_cons] at h
    obtain ⟨len, rfl⟩ : ∃ l, len = l + 1 := ⟨len - 1, by omega⟩
    obtain ⟨ws, hws, hl, hread⟩ := ih (len := len) (by omega)
    refine ⟨_, by rw [wordsOfBytes, hws, Option.map_some], by rw [List.length_cons, hl], fun n w hn => ?_⟩
    cases n with
    | zero => exact toNat_wordOfBytes lo hi
    | succ n => exact hread n w (by omega)

/-- R225, R227: a list of words not longer than the store is loaded from cell 0 on. -/
theorem loadPadded_of_le {pad : Word} {image : List Byte} {ws : List Word} (hw : wordsOfBytes image = some ws)
    (hl : ws.length ≤ 32768) :
    loadPadded pad image = .ok { State.reset with mem := cellsFrom 0 (paddedImage pad ws) } := by
  simp only [loadPadded, hw, loadWordsPadded]
  exact if_neg (Nat.not_lt.2 hl)

theorem loadPadded_of_lt {pad : Word} {image : List Byte} {ws : List Word} (hw : wordsOfBytes image = some ws)
    (hl : 32768 < ws.length) : loadPadded pad image = .error .imageTooLarge := by
  simp only [loadPadded, hw, loadWordsPadded]
  exact if_pos hl

/-- R227: a loaded cell holds the image's word. -/
theorem getD_paddedImage_of_lt {pad w : Word} {ws : List Word} {n : Nat} (h : n < ws.length) :
    (paddedImage pad ws).getD n w = ws.getD n w := by
  unfold paddedImage
  split
  · rfl
  · exact List.getD_append _ _ _ _ h

/-- R227: a cell of the store behind the image holds the padding word. -/
theorem getD_paddedImage_of_le {pad : Word} {ws : List Word} {n : Nat} (h : ws.length ≤ n) (hn : n < 32768) :
    (paddedImage pad ws).getD n Config.padWord = pad := by
  unfold paddedImage
  split
  · rw [List.getD_eq_default _ _ h]; exact (‹pad = _›).symm
  · rw [List.getD_append_right _ _ _ _ h, List.getD_replicate]
    show n - ws.length < 32768 - ws.length
    omega

/-- Settles O57: the words of the image (`wordsOfBytes_of_even`) stand in the cells that `read_cellsFrom` reads. -/
theorem imageLoadsLittleEndian : Obligations.ImageLoadsLittleEndian := by
  intro pad image len h hlen
  obtain ⟨ws, hw, rfl, hread⟩ := wordsOfBytes_of_even h
  refine ⟨_, loadPadded_of_le hw hlen, fun n hn => ?image, fun n hn hlt => ?padding⟩
  case image => rw [read_cellsFrom, if_pos n.zero_le, Nat.sub_zero, getD_paddedImage_of_lt hn, hread n _ hn]
  case padding => rw [read_cellsFrom, if_pos n.zero_le, Nat.sub_zero, getD_paddedImage_of_le hn hlt]

/-- Settles O58: an odd image has no words, and an even one half as many as bytes. -/
theorem badImagesAreRefused : Obligations.BadImagesAreRefused := by
  intro pad image
  refine ⟨fun h => ?odd, fun h hl => ?tooLarge⟩
  case odd => rw [loadPadded, wordsOfBytes_of_odd h]
  case tooLarge =>
    obtain ⟨ws, hw, hlen, -⟩ := wordsOfBytes_of_even (image := image) (len := image.length / 2) (by omega)
    exact loadPadded_of_lt hw (by omega)

/-- R82: with the words of `in` at the pc a step is that `in`. -/
theorem step_of_input {s : State} {a : Word} (hs : s.status = .running) (hp : s.pc.toNat + 2 ≤ 32768)
    (hop : s.mem.read s.pc.toNat = 20) (ha : s.mem.read (s.pc.toNat + 1) = a) : step s = exec (.input a) s := by
  refine stepRunsTheDecodedInstruction s (.input a) hs rfl hp fun k hk => ?_
  have : k = 0 ∨ k = 1 := by have : k < 2 := hk; omega
  rcases this with rfl | rfl
  · exact hop
  · exact ha

/-- R177: an open input takes a line at its end. -/
theorem State.deliverLine_of_open {s : State} (h : s.inputClosed = false) (line : List Byte) :
    s.deliverLine line = { s with input := s.input ++ [line] } := by
  rw [State.deliverLine, h]; rfl

/-- Settles O59: the three steps are the same `in`, waiting, taking the line delivered, and finding the input closed. -/
theorem hostLiftsTheWait : Obligations.HostLiftsTheWait := by
  intro a d s ch cs ha hs hp hop harg hb hl hc
  have hreg := not_notRegister ha
  refine ⟨?waits, ?line, ?closed⟩
  case waits => rw [step_of_input hs hp hop harg, exec_input_of_wait hreg (inChar_of_open hb hl hc)]
  case line =>
    rw [State.deliverLine_of_open hc, hl, List.nil_append]
    rw [step_of_input (s := { s with input := [ch :: cs] }) hs hp hop harg]
    exact exec_input_of_char ha (inChar_of_line (s := { s with input := [ch :: cs] }) hb rfl)
  case closed =>
    rw [step_of_input (s := s.closeInput) hs hp hop harg]
    exact exec_input_of_fatal hreg (inChar_of_closed (s := s.closeInput) hb hl rfl)

/-! R176, D13: the host shim. -/

theorem getLast?_of_suffix {l l' : List Byte} {c : Byte} (h : l ++ [c] <:+ l') : l'.getLast? = some c := by
  obtain ⟨front, rfl⟩ := h
  simp

theorem suffix_of_append_suffix_append {l l' m : List Byte} (h : l ++ m <:+ l' ++ m) : l <:+ l' := by
  obtain ⟨front, e⟩ := h
  exact ⟨front, List.append_cancel_right (by rwa [List.append_assoc])⟩

/-- Settles O60: the last characters of the raw line decide what is taken from it. -/
theorem terminatorIsStrippedOnce : Obligations.TerminatorIsStrippedOnce := by
  intro line
  refine ⟨?crLf, fun hline => ?lf, fun hline => ?neither⟩
  case crLf =>
    rw [stripTerminator, if_pos (List.suffix_append line [13, 10])]
    simp
  case lf =>
    have hcr : ¬ [13, 10] <:+ line ++ [10] := fun h =>
      hline 13 (getLast?_of_suffix (l := []) (suffix_of_append_suffix_append (l := [13]) h)) rfl
    rw [stripTerminator, if_neg hcr, if_pos (List.suffix_append line [10])]
    simp
  case neither =>
    have hcr : ¬ [13, 10] <:+ line := fun h => hline 10 (getLast?_of_suffix (l := [13]) h) rfl
    have hlf : ¬ [10] <:+ line := fun h => hline 10 (getLast?_of_suffix (l := []) h) rfl
    rw [stripTerminator, if_neg hcr, if_neg hlf]

end Sys2Proof.Machine
end
